-- ==== Sys2Proof/Word.lean ====
section
/-! DEFINITION. Word.lean: the word types of the CHIP-8 core (spec/10_state.md R20, R21). -/

namespace Sys2Proof

/-- An 8-bit value: a general register, a timer, a memory byte (R20, R31). -/
abbrev Byte := BitVec 8

/-- A 16-bit value: the program counter, the index register, a stack entry, an instruction word
(R20, R28, R70). -/
abbrev Word := BitVec 16

/-- A register number; every value 0..15 is a valid register (R21, R73). -/
abbrev Reg := Fin 16

/-- `VF`, the register that doubles as the flag output (R22). -/
abbrev regF : Reg := 15

end Sys2Proof
end

