-- ==== Sys2Proof/Config.lean ====
section
/-! DEFINITION. Config.lean: what one implementation fixes (the parameters of spec/00_scope.md R6) and the
free values of the per-step inputs (R9). The `opaque` constants have no body: nothing in Lean can evaluate
them, so whatever is proved holds for every value of them. -/

namespace Sys2Proof

/-- One less than the step period of `State.reset`'s machine. OPEN in the spec (R6, D18): any natural number
(log 2). -/
opaque Config.periodNsPred : Nat

/-- The step period `period_ns` of `State.reset`'s machine: an unconstrained natural number of nanoseconds, at
least 1 (R6, R260, D18; log 2). -/
def Config.periodNs : Nat := Config.periodNsPred + 1

/-- The key snapshot of the step numbered `n`, where the host's calls in `State.inputs` do not give one: any
snapshot may occur (R9, D20; log 1). -/
opaque Config.freeKeys : Nat → Vector Bool 16

/-- The random byte of the step numbered `n`, where the host's calls in `State.inputs` do not give one: an
unconstrained draw (R9, R152, D19; log 1). -/
opaque Config.freeRnd : Nat → Byte

/-- The parameters a construction of the core takes (R6, R260). -/
structure Params where
  /-- `period_ns`, in nanoseconds; OPEN (D18). -/
  periodNs : Nat
  /-- `initMem`: the reset contents of every byte outside the font; OPEN (D16). -/
  initMem : Nat → Byte
  /-- `fontTable`: the 80 bytes at 0x050..0x09F (D17). -/
  fontTable : Vector Byte 80

end Sys2Proof
end

