-- ==== Sys2Proof/Syntax.lean ====
section
/-! DEFINITION. Syntax.lean: the instruction set, one constructor per row of spec/opcode_table.json
(spec/30_encoding.md R76). UNKNOWN words (R78) are no row and no constructor. -/

namespace Sys2Proof

/-- The 34 instructions, in the order of R76. `x` and `y` are register numbers (R71), `kk` an 8-bit and `nnn` a
12-bit unsigned immediate (R72), `n` a row count 0..15 (R72). -/
inductive Instr where
  /-- `00E0` CLS (R190). -/
  | cls
  /-- `00EE` RET (R121). -/
  | ret
  /-- `1nnn` JP nnn (R120). -/
  | jp (nnn : BitVec 12)
  /-- `2nnn` CALL nnn (R122). -/
  | call (nnn : BitVec 12)
  /-- `3xkk` SE Vx, kk (R123). -/
  | seImm (x : Reg) (kk : Byte)
  /-- `4xkk` SNE Vx, kk (R124). -/
  | sneImm (x : Reg) (kk : Byte)
  /-- `5xy0` SE Vx, Vy (R125). -/
  | seReg (x y : Reg)
  /-- `9xy0` SNE Vx, Vy (R126). -/
  | sneReg (x y : Reg)
  /-- `6xkk` LD Vx, kk (R140). -/
  | ldImm (x : Reg) (kk : Byte)
  /-- `7xkk` ADD Vx, kk (R141). -/
  | addImm (x : Reg) (kk : Byte)
  /-- `8xy0` LD Vx, Vy (R142). -/
  | ldReg (x y : Reg)
  /-- `8xy1` OR Vx, Vy (R143). -/
  | orReg (x y : Reg)
  /-- `8xy2` AND Vx, Vy (R144). -/
  | andReg (x y : Reg)
  /-- `8xy3` XOR Vx, Vy (R145). -/
  | xorReg (x y : Reg)
  /-- `8xy4` ADD Vx, Vy (R146). -/
  | addReg (x y : Reg)
  /-- `8xy5` SUB Vx, Vy (R147). -/
  | subReg (x y : Reg)
  /-- `8xy6` SHR Vx, Vy (R148): `y` is encoded and not read. -/
  | shr (x y : Reg)
  /-- `8xy7` SUBN Vx, Vy (R149). -/
  | subnReg (x y : Reg)
  /-- `8xyE` SHL Vx, Vy (R150): `y` is encoded and not read. -/
  | shl (x y : Reg)
  /-- `Annn` LD I, nnn (R170). -/
  | ldI (nnn : BitVec 12)
  /-- `Bnnn` JP V0, nnn (R127). -/
  | jpV0 (nnn : BitVec 12)
  /-- `Cxkk` RND Vx, kk (R152). -/
  | rnd (x : Reg) (kk : Byte)
  /-- `Dxyn` DRW Vx, Vy, n (R192). -/
  | drw (x y : Reg) (n : Fin 16)
  /-- `Ex9E` SKP Vx (R210). -/
  | skp (x : Reg)
  /-- `ExA1` SKNP Vx (R211). -/
  | sknp (x : Reg)
  /-- `Fx07` LD Vx, DT (R213). -/
  | ldVxDT (x : Reg)
  /-- `Fx0A` LD Vx, K (R212). -/
  | ldK (x : Reg)
  /-- `Fx15` LD DT, Vx (R214). -/
  | ldDTVx (x : Reg)
  /-- `Fx18` LD ST, Vx (R215). -/
  | ldSTVx (x : Reg)
  /-- `Fx1E` ADD I, Vx (R171). -/
  | addI (x : Reg)
  /-- `Fx29` LD F, Vx (R172). -/
  | ldF (x : Reg)
  /-- `Fx33` LD B, Vx (R173). -/
  | ldB (x : Reg)
  /-- `Fx55` LD [I], Vx (R174). -/
  | ldMemStore (x : Reg)
  /-- `Fx65` LD Vx, [I] (R175). -/
  | ldMemLoad (x : Reg)
  deriving DecidableEq, Repr

end Sys2Proof
end

