-- ==== Sys2Proof/WellFormed.lean ====
section
/-! DEFINITION. WellFormed.lean: which instructions, construction parameters and ROM images are well formed.
An instruction's operands carry their bounds in their types, so the check of an instruction can only succeed
(`Sys2Proof.Laws.FieldsFit`); it is written out, over fields that can be ill formed, so that a change of an
operand's type cannot go unnoticed. -/

namespace Sys2Proof

/-- An operand as the encoding holds it: how many bits the format gives it (R74), and its value. -/
structure Field where
  width : Nat
  value : Nat
  deriving DecidableEq, Repr

/-- The value fits the bits the format gives the field (R73: "architecturally bounded"). -/
def Field.fits (f : Field) : Bool := decide (f.value < 2 ^ f.width)

/-- A register field, 4 bits (R71). -/
def Field.reg (r : Reg) : Field := ⟨4, r.val⟩

/-- An immediate field of the width of its value (R72). -/
def Field.imm {k : Nat} (b : BitVec k) : Field := ⟨k, b.toNat⟩

/-- The operand fields of an instruction, left to right, with the widths of R74's formats. -/
def Instr.fields : Instr → List Field
  | .cls => []
  | .ret => []
  | .jp nnn => [.imm nnn]
  | .call nnn => [.imm nnn]
  | .seImm x kk => [.reg x, .imm kk]
  | .sneImm x kk => [.reg x, .imm kk]
  | .seReg x y => [.reg x, .reg y]
  | .sneReg x y => [.reg x, .reg y]
  | .ldImm x kk => [.reg x, .imm kk]
  | .addImm x kk => [.reg x, .imm kk]
  | .ldReg x y => [.reg x, .reg y]
  | .orReg x y => [.reg x, .reg y]
  | .andReg x y => [.reg x, .reg y]
  | .xorReg x y => [.reg x, .reg y]
  | .addReg x y => [.reg x, .reg y]
  | .subReg x y => [.reg x, .reg y]
  | .shr x y => [.reg x, .reg y]
  | .subnReg x y => [.reg x, .reg y]
  | .shl x y => [.reg x, .reg y]
  | .ldI nnn => [.imm nnn]
  | .jpV0 nnn => [.imm nnn]
  | .rnd x kk => [.reg x, .imm kk]
  | .drw x y n => [.reg x, .reg y, ⟨4, n.val⟩]
  | .skp x => [.reg x]
  | .sknp x => [.reg x]
  | .ldVxDT x => [.reg x]
  | .ldK x => [.reg x]
  | .ldDTVx x => [.reg x]
  | .ldSTVx x => [.reg x]
  | .addI x => [.reg x]
  | .ldF x => [.reg x]
  | .ldB x => [.reg x]
  | .ldMemStore x => [.reg x]
  | .ldMemLoad x => [.reg x]

/-- Every operand fits its field. -/
def Instr.wellFormed (i : Instr) : Bool := i.fields.all Field.fits

/-- `period_ns` is a natural number, at least 1 (R6, D18). -/
def Params.wellFormed (p : Params) : Bool := decide (1 ≤ p.periodNs)

/-- The ROM fits the program area: at most 0x1000 - 0x200 = 3584 bytes (R6, R263). -/
def romWellFormed (rom : List Byte) : Bool := decide (rom.length ≤ 3584)

end Sys2Proof
end

