-- ==== Sys2Proof/Decode.lean ====
section
/-! DEFINITION. Decode.lean: the decoder (spec/30_encoding.md R70 to R80), total on any bytes and rejecting by
name; the encoder, written from the same formats (R74, R76); and the opcode table's own masks and patterns. -/

namespace Sys2Proof

/-! ## Fields of a word (R15, R71, R72) -/

/-- `n0 = w[15:12]`. -/
def wordN0 (w : Word) : BitVec 4 := w.extractLsb' 12 4

/-- `x = w[11:8]`. -/
def wordX (w : Word) : Reg := (w.extractLsb' 8 4).toFin

/-- `y = w[7:4]`. -/
def wordY (w : Word) : Reg := (w.extractLsb' 4 4).toFin

/-- `n = n3 = w[3:0]`. -/
def wordN (w : Word) : Fin 16 := (w.extractLsb' 0 4).toFin

/-- `kk = w[7:0]`. -/
def wordKK (w : Word) : Byte := w.extractLsb' 0 8

/-- `nnn = w[11:0]`. -/
def wordNNN (w : Word) : BitVec 12 := w.extractLsb' 0 12

/-- Big-endian: the byte at the lower address forms bits 15..8 (R54). -/
def joinBytes (hi lo : Byte) : Word := hi ++ lo

/-- The byte that lies at the lower address (R54). -/
def highByte (w : Word) : Byte := w.extractLsb' 8 8

/-- The byte that lies at the higher address (R54). -/
def lowByte (w : Word) : Byte := w.extractLsb' 0 8

/-! ## Rejections -/

/-- Why bytes are no instruction. The `unknown` classes are R78's; such a word executes as the no-op of R106. -/
inductive Reject where
  /-- Fewer than two bytes. -/
  | truncated
  /-- n0 = 0 and the word is neither 00E0 nor 00EE. -/
  | unknown0
  /-- n0 = 5 and n3 ≠ 0. -/
  | unknown5
  /-- n0 = 8 and n3 is 8, 9, A, B, C, D or F. -/
  | unknown8
  /-- n0 = 9 and n3 ≠ 0. -/
  | unknown9
  /-- n0 = E and kk is neither 9E nor A1. -/
  | unknownE
  /-- n0 = F and kk is none of 07, 0A, 15, 18, 1E, 29, 33, 55, 65. -/
  | unknownF
  deriving DecidableEq, Repr

/-! ## The decoder, by the opcode map of R75 -/

/-- Group 0: only the two complete words are instructions (R75). -/
def decodeGroup0 (w : Word) : Except Reject Instr :=
  if w = 0x00E0 then .ok .cls
  else if w = 0x00EE then .ok .ret
  else .error .unknown0

/-- Group 8: the ALU group, selected by n3 (R75, R77; the numbering is D8's, log 11). -/
def decodeGroup8 (w : Word) : Except Reject Instr :=
  match (wordN w).val with
  | 0x0 => .ok (.ldReg (wordX w) (wordY w))
  | 0x1 => .ok (.orReg (wordX w) (wordY w))
  | 0x2 => .ok (.andReg (wordX w) (wordY w))
  | 0x3 => .ok (.xorReg (wordX w) (wordY w))
  | 0x4 => .ok (.addReg (wordX w) (wordY w))
  | 0x5 => .ok (.subReg (wordX w) (wordY w))
  | 0x6 => .ok (.shr (wordX w) (wordY w))
  | 0x7 => .ok (.subnReg (wordX w) (wordY w))
  | 0xE => .ok (.shl (wordX w) (wordY w))
  | _ => .error .unknown8

/-- Group E: the key skips, selected by kk (R75). -/
def decodeGroupE (w : Word) : Except Reject Instr :=
  match (wordKK w).toNat with
  | 0x9E => .ok (.skp (wordX w))
  | 0xA1 => .ok (.sknp (wordX w))
  | _ => .error .unknownE

/-- Group F, selected by kk (R75). -/
def decodeGroupF (w : Word) : Except Reject Instr :=
  match (wordKK w).toNat with
  | 0x07 => .ok (.ldVxDT (wordX w))
  | 0x0A => .ok (.ldK (wordX w))
  | 0x15 => .ok (.ldDTVx (wordX w))
  | 0x18 => .ok (.ldSTVx (wordX w))
  | 0x1E => .ok (.addI (wordX w))
  | 0x29 => .ok (.ldF (wordX w))
  | 0x33 => .ok (.ldB (wordX w))
  | 0x55 => .ok (.ldMemStore (wordX w))
  | 0x65 => .ok (.ldMemLoad (wordX w))
  | _ => .error .unknownF

/-- The instruction a word stands for, or the class of UNKNOWN words it lies in (R75, R76, R78). -/
def decodeWord (w : Word) : Except Reject Instr :=
  match (wordN0 w).toNat with
  | 0x0 => decodeGroup0 w
  | 0x1 => .ok (.jp (wordNNN w))
  | 0x2 => .ok (.call (wordNNN w))
  | 0x3 => .ok (.seImm (wordX w) (wordKK w))
  | 0x4 => .ok (.sneImm (wordX w) (wordKK w))
  | 0x5 => if (wordN w).val = 0 then .ok (.seReg (wordX w) (wordY w)) else .error .unknown5
  | 0x6 => .ok (.ldImm (wordX w) (wordKK w))
  | 0x7 => .ok (.addImm (wordX w) (wordKK w))
  | 0x8 => decodeGroup8 w
  | 0x9 => if (wordN w).val = 0 then .ok (.sneReg (wordX w) (wordY w)) else .error .unknown9
  | 0xA => .ok (.ldI (wordNNN w))
  | 0xB => .ok (.jpV0 (wordNNN w))
  | 0xC => .ok (.rnd (wordX w) (wordKK w))
  | 0xD => .ok (.drw (wordX w) (wordY w) (wordN w))
  | 0xE => decodeGroupE w
  | _ => decodeGroupF w

/-- Decoding a stream of bytes: one instruction, two bytes, big-endian (R54, R70), and the rest of the bytes. -/
def decode : List Byte → Except Reject (Instr × List Byte)
  | hi :: lo :: rest =>
    match decodeWord (joinBytes hi lo) with
    | .ok i => .ok (i, rest)
    | .error e => .error e
  | _ => .error .truncated

/-! ## The encoder, by the formats of R74 -/

/-- A nibble that holds a register number or a row count. -/
def nibble (r : Fin 16) : BitVec 4 := BitVec.ofNat 4 r.val

/-- Format `NNN` (R74). -/
def formatNNN (n0 : BitVec 4) (nnn : BitVec 12) : Word := n0 ++ nnn

/-- Formats `XKK` and `XFIX` (R74): a register and a byte, which `XFIX` fixes. -/
def formatXKK (n0 : BitVec 4) (x : Reg) (kk : Byte) : Word := n0 ++ nibble x ++ kk

/-- Formats `XY0` and `XYN` (R74): two registers and a nibble, which `XY0` fixes. -/
def formatXYN (n0 : BitVec 4) (x y : Reg) (n : BitVec 4) : Word := n0 ++ nibble x ++ nibble y ++ n

/-- The word of an instruction (R76). -/
def encode : Instr → Word
  | .cls => 0x00E0
  | .ret => 0x00EE
  | .jp nnn => formatNNN 0x1 nnn
  | .call nnn => formatNNN 0x2 nnn
  | .seImm x kk => formatXKK 0x3 x kk
  | .sneImm x kk => formatXKK 0x4 x kk
  | .seReg x y => formatXYN 0x5 x y 0x0
  | .sneReg x y => formatXYN 0x9 x y 0x0
  | .ldImm x kk => formatXKK 0x6 x kk
  | .addImm x kk => formatXKK 0x7 x kk
  | .ldReg x y => formatXYN 0x8 x y 0x0
  | .orReg x y => formatXYN 0x8 x y 0x1
  | .andReg x y => formatXYN 0x8 x y 0x2
  | .xorReg x y => formatXYN 0x8 x y 0x3
  | .addReg x y => formatXYN 0x8 x y 0x4
  | .subReg x y => formatXYN 0x8 x y 0x5
  | .shr x y => formatXYN 0x8 x y 0x6
  | .subnReg x y => formatXYN 0x8 x y 0x7
  | .shl x y => formatXYN 0x8 x y 0xE
  | .ldI nnn => formatNNN 0xA nnn
  | .jpV0 nnn => formatNNN 0xB nnn
  | .rnd x kk => formatXKK 0xC x kk
  | .drw x y n => formatXYN 0xD x y (nibble n)
  | .skp x => formatXKK 0xE x 0x9E
  | .sknp x => formatXKK 0xE x 0xA1
  | .ldVxDT x => formatXKK 0xF x 0x07
  | .ldK x => formatXKK 0xF x 0x0A
  | .ldDTVx x => formatXKK 0xF x 0x15
  | .ldSTVx x => formatXKK 0xF x 0x18
  | .addI x => formatXKK 0xF x 0x1E
  | .ldF x => formatXKK 0xF x 0x29
  | .ldB x => formatXKK 0xF x 0x33
  | .ldMemStore x => formatXKK 0xF x 0x55
  | .ldMemLoad x => formatXKK 0xF x 0x65

/-- The bytes of an instruction as memory holds them, the first at the lowest address (R54). -/
def encodeBytes (i : Instr) : List Byte := [highByte (encode i), lowByte (encode i)]

/-! ## The opcode table's masks and patterns -/

/-- A row of spec/opcode_table.json: a word matches it when `(word AND mask) = pattern`. -/
structure OpcodeRow where
  mnemonic : String
  mask : Word
  pattern : Word
  deriving DecidableEq, Repr

/-- The rows of groups 0 to 7 and 9. -/
def opcodeRowsLow : List OpcodeRow :=
  [ ⟨"CLS", 0xFFFF, 0x00E0⟩, ⟨"RET", 0xFFFF, 0x00EE⟩, ⟨"JP", 0xF000, 0x1000⟩, ⟨"CALL", 0xF000, 0x2000⟩,
    ⟨"SE_imm", 0xF000, 0x3000⟩, ⟨"SNE_imm", 0xF000, 0x4000⟩, ⟨"SE_reg", 0xF00F, 0x5000⟩,
    ⟨"SNE_reg", 0xF00F, 0x9000⟩, ⟨"LD_imm", 0xF000, 0x6000⟩, ⟨"ADD_imm", 0xF000, 0x7000⟩ ]

/-- The rows of group 8. -/
def opcodeRowsAlu : List OpcodeRow :=
  [ ⟨"LD_reg", 0xF00F, 0x8000⟩, ⟨"OR", 0xF00F, 0x8001⟩, ⟨"AND", 0xF00F, 0x8002⟩, ⟨"XOR", 0xF00F, 0x8003⟩,
    ⟨"ADD_reg", 0xF00F, 0x8004⟩, ⟨"SUB", 0xF00F, 0x8005⟩, ⟨"SHR", 0xF00F, 0x8006⟩, ⟨"SUBN", 0xF00F, 0x8007⟩,
    ⟨"SHL", 0xF00F, 0x800E⟩ ]

/-- The rows of groups A to F. -/
def opcodeRowsHigh : List OpcodeRow :=
  [ ⟨"LD_I", 0xF000, 0xA000⟩, ⟨"JP_V0", 0xF000, 0xB000⟩, ⟨"RND", 0xF000, 0xC000⟩, ⟨"DRW", 0xF000, 0xD000⟩,
    ⟨"SKP", 0xF0FF, 0xE09E⟩, ⟨"SKNP", 0xF0FF, 0xE0A1⟩, ⟨"LD_Vx_DT", 0xF0FF, 0xF007⟩, ⟨"LD_K", 0xF0FF, 0xF00A⟩,
    ⟨"LD_DT_Vx", 0xF0FF, 0xF015⟩, ⟨"LD_ST_Vx", 0xF0FF, 0xF018⟩, ⟨"ADD_I", 0xF0FF, 0xF01E⟩,
    ⟨"LD_F", 0xF0FF, 0xF029⟩, ⟨"LD_B", 0xF0FF, 0xF033⟩, ⟨"LD_mem_store", 0xF0FF, 0xF055⟩,
    ⟨"LD_mem_load", 0xF0FF, 0xF065⟩ ]

/-- The 34 rows of spec/opcode_table.json. -/
def opcodeRows : List OpcodeRow := opcodeRowsLow ++ opcodeRowsAlu ++ opcodeRowsHigh

/-- A word matches a row (30_encoding.md, opening paragraph). -/
def OpcodeRow.holds (r : OpcodeRow) (w : Word) : Bool := w &&& r.mask == r.pattern

/-- The row's name of an instruction. -/
def Instr.mnemonic : Instr → String
  | .cls => "CLS"
  | .ret => "RET"
  | .jp _ => "JP"
  | .call _ => "CALL"
  | .seImm _ _ => "SE_imm"
  | .sneImm _ _ => "SNE_imm"
  | .seReg _ _ => "SE_reg"
  | .sneReg _ _ => "SNE_reg"
  | .ldImm _ _ => "LD_imm"
  | .addImm _ _ => "ADD_imm"
  | .ldReg _ _ => "LD_reg"
  | .orReg _ _ => "OR"
  | .andReg _ _ => "AND"
  | .xorReg _ _ => "XOR"
  | .addReg _ _ => "ADD_reg"
  | .subReg _ _ => "SUB"
  | .shr _ _ => "SHR"
  | .subnReg _ _ => "SUBN"
  | .shl _ _ => "SHL"
  | .ldI _ => "LD_I"
  | .jpV0 _ => "JP_V0"
  | .rnd _ _ => "RND"
  | .drw _ _ _ => "DRW"
  | .skp _ => "SKP"
  | .sknp _ => "SKNP"
  | .ldVxDT _ => "LD_Vx_DT"
  | .ldK _ => "LD_K"
  | .ldDTVx _ => "LD_DT_Vx"
  | .ldSTVx _ => "LD_ST_Vx"
  | .addI _ => "ADD_I"
  | .ldF _ => "LD_F"
  | .ldB _ => "LD_B"
  | .ldMemStore _ => "LD_mem_store"
  | .ldMemLoad _ => "LD_mem_load"

/-! ## The host's reading of a table word -/

/-- The instruction the decoder reads from the instruction whose bits are `w`, numbered as
spec/opcode_table.json numbers them: bit 0 is the word's least significant bit, and every bit above `nbits` is 0.
The word is laid out in two bytes, the high one at the lower address (R54). -/
def decodeTableWord (nbits w : Nat) : Option Instr :=
  let word : Word := BitVec.ofNat 16 (w % 2 ^ nbits)
  match decode [highByte word, lowByte word] with
  | .ok (i, _) => some i
  | .error _ => none

end Sys2Proof
end

