-- ==== Sys2Proof/Machine/Constants.lean ====
section
/-! DEFINITION. Machine/Constants.lean: the fixed sizes and addresses of this hardware (spec/00_scope.md R5,
unaudited literals of the source, log 19). -/

namespace Sys2Proof.Machine

/-- "4096 addressable bytes" (R5, R50). -/
abbrev memSize : Nat := 0x1000

/-- The font base address (R31, R172). -/
abbrev fontBase : Nat := 0x050

/-- The program load address and reset entry point (R58, R263). -/
abbrev programBase : Nat := 0x200

/-- The longest ROM, in bytes (R6, R263). -/
abbrev romMax : Nat := memSize - programBase

/-- "exactly 1/60 s (16,666,667 ns)" (R5, R30). -/
abbrev timerPeriodNs : Nat := 16666667

/-- Columns of the framebuffer (R33). -/
abbrev screenWidth : Nat := 64

/-- Rows of the framebuffer (R33). -/
abbrev screenHeight : Nat := 32

/-- The default of the parameter `fontTable`: the 16 glyphs of R31, one to a line (PRESUMED: the spec supplies the
bytes from general knowledge, D17, G1; log 4). -/
def fontTable : Vector Byte 80 := #v[
  0xF0, 0x90, 0x90, 0x90, 0xF0,
  0x20, 0x60, 0x20, 0x20, 0x70,
  0xF0, 0x10, 0xF0, 0x80, 0xF0,
  0xF0, 0x10, 0xF0, 0x10, 0xF0,
  0x90, 0x90, 0xF0, 0x10, 0x10,
  0xF0, 0x80, 0xF0, 0x10, 0xF0,
  0xF0, 0x80, 0xF0, 0x90, 0xF0,
  0xF0, 0x10, 0x20, 0x40, 0x40,
  0xF0, 0x90, 0xF0, 0x90, 0xF0,
  0xF0, 0x90, 0xF0, 0x10, 0xF0,
  0xF0, 0x90, 0xF0, 0x90, 0x90,
  0xE0, 0x90, 0xE0, 0x90, 0xE0,
  0xF0, 0x80, 0x80, 0x80, 0xF0,
  0xE0, 0x90, 0x90, 0x90, 0xE0,
  0xF0, 0x80, 0xF0, 0x80, 0xF0,
  0xF0, 0x80, 0xF0, 0x80, 0x80]

end Sys2Proof.Machine
end

