-- ==== Sys2Proof/Machine/State.lean ====
section
/-! DEFINITION. Machine/State.lean: the state of the core as plain data (spec/10_state.md R20), the reasons a step
or a host call stops, and the state right after reset (R260). -/

namespace Sys2Proof.Machine

/-- The fault reasons of R232, each with the `info` it records. A meaning, the instruction fetch or `load` RAISES
one (R14); the step driver then enters the faulted state of R231 with it. Safe: the spec raises a fault where the
source leaves the case undefined (D1), so no claim gets a value the implementation may not produce. -/
inductive Fault where
  /-- Code 1: an accessed address is 0x1000 or more; `address` is the first such address, exact. Raised by the fetch
  and by Dxyn, Fx33, Fx55, Fx65 (R52, R101). Safe. -/
  | memOutOfRange (address : Nat)
  /-- Code 2: `2nnn` with SP = 15, at the address it was fetched from (R122). Safe. -/
  | stackOverflow (fetchPC : Word)
  /-- Code 3: `00EE` with SP = 0, at the address it was fetched from (R121). Safe. -/
  | stackUnderflow (fetchPC : Word)
  /-- Code 4: `Ex9E` or `ExA1` with V[x] = `key`, 16 or more (R210, R211). Safe. -/
  | keyIndexOutOfRange (key : Byte)
  /-- Code 5: `load` of `length` bytes, more than 3584 (R263). Safe. -/
  | romTooLarge (length : Nat)
  deriving DecidableEq, Repr

/-- What is refused. No instruction's meaning refuses. -/
inductive Refusal where
  /-- An instruction with no meaning in the model; raised by an arm of `exec` only. Safe. -/
  | notModelled (mnemonic : String)
  /-- `load` once a step has been called; raised by `State.load` (R263, I9). Safe. -/
  | loadAfterFirstStep
  /-- A second `load`; raised by `State.load` (R247, I9). Safe. -/
  | secondLoad
  /-- `load` into a faulted core; raised by `State.load` (R231: only reset clears a fault; log 7). Safe. -/
  | loadIntoFaultedCore
  deriving DecidableEq, Repr

/-- The memory `MEM` (R50) as a list of (address, byte) pairs, addresses strictly rising, with no entry equal to
what an unlisted address reads as (`Memory.unlisted`, `Memory.wf`). -/
abbrev Memory := List Host.Cell

/-- The framebuffer: 32 rows, top to bottom, of 64 pixels, left to right (R33; orientation D28, log 12). -/
abbrev Screen := Vector (Vector Bool 64) 32

/-- The inputs of one host call `step(keys, rnd)` (R9). -/
structure StepInput where
  /-- The key snapshot: `keys[k]` is true when key k is pressed. -/
  keys : Vector Bool 16
  /-- The random byte, read only by Cxkk. -/
  rnd : Byte
  deriving DecidableEq, Repr

/-- Where the host is in its order construct, load, step (R247, R264; the model's own field, log 7). -/
inductive Phase where
  | constructed
  | loaded
  | running
  deriving DecidableEq, Repr

/-- The state of the core. -/
structure State where
  /-- `MEM` (R31, R50). -/
  mem : Memory
  /-- `V[0]`..`V[15]` (R21); `V[15]` is `VF` (R22). -/
  v : Vector Byte 16
  /-- `PC` (R24). -/
  pc : Word
  /-- `I` (R26). -/
  i : Word
  /-- `SP`, the index of the last-used stack slot (R27). -/
  sp : Fin 16
  /-- `STACK[0]`..`STACK[15]` (R28). -/
  stack : Vector Word 16
  /-- `DT`, the delay timer (R29). -/
  dt : Byte
  /-- `ST`, the sound timer (R29). -/
  st : Byte
  /-- `DTACC`, in nanoseconds (R30). -/
  dtacc : Nat
  /-- `FB` (R33). -/
  fb : Screen
  /-- `fault`: none, or the first fault raised (R34). -/
  fault : Option Fault
  /-- `period_ns`, the step period, fixed at construction (R20, R260). -/
  periodNs : Nat
  /-- Output `display_changed` of the last step (R10, R105; log 6). -/
  displayChanged : Bool
  /-- Output `unknown_opcode` of the last step (R10, R106; log 6). -/
  unknownOpcode : Bool
  /-- The inputs of the host's next calls of `step`, the next call's first (R9; the model's own field, log 1). -/
  inputs : List StepInput
  /-- How many steps have been called (the model's own field: it numbers the free inputs, log 1). -/
  ticks : Nat
  /-- Where the host is in its order of calls (the model's own field, log 7). -/
  phase : Phase
  deriving DecidableEq, Repr

/-- What an instruction, a step or a host call answers. -/
abbrev Result := Host.Outcome State Fault Refusal

/-- The core right after construction (R260), with the period `Config.periodNs` (OPEN, log 2), the default font
(log 4) and every other byte of memory reading 0 (log 3): memory lists nothing. `I`, `SP`, `STACK`, `DT`, `ST` and
`DTACC` hold the values of the spec's decision D15 (log 9). -/
def State.reset : State where
  mem := []
  v := Vector.replicate 16 0
  pc := BitVec.ofNat 16 programBase
  i := 0
  sp := 0
  stack := Vector.replicate 16 0
  dt := 0
  st := 0
  dtacc := timerPeriodNs
  fb := Vector.replicate 32 (Vector.replicate 64 false)
  fault := none
  periodNs := Config.periodNs
  displayChanged := false
  unknownOpcode := false
  inputs := []
  ticks := 0
  phase := .constructed

end Sys2Proof.Machine
end

