-- ==== Sys2Proof/Machine/Memory.lean ====
section
/-! DEFINITION. Machine/Memory.lean: the memory as canonical plain data, its byte accesses and its block accesses
(spec/20_memory.md R50 to R55, spec/00_scope.md R13). -/

namespace Sys2Proof.Machine

/-- What an address that is not listed reads as: the font's byte in the font region (R31), 0 elsewhere. The spec
leaves the bytes outside the font OPEN (`initMem`, D16); DESIGN CHOICE 0, as the spec's test vectors take it
(log 3). -/
def Memory.unlisted (a : Nat) : Byte :=
  if a < fontBase then 0 else (fontTable.toList)[a - fontBase]?.getD 0

/-- The byte at address `a`. -/
def Memory.read : Memory → Nat → Byte
  | [], a => Memory.unlisted a
  | (k, c) :: m, a => if k = a then c else Memory.read m a

/-- List the byte `b` at `a`, in address order. -/
def Memory.insert (a : Nat) (b : Byte) : Memory → Memory
  | [] => [(a, b)]
  | (k, c) :: m =>
    if a < k then (a, b) :: (k, c) :: m
    else if a = k then (a, b) :: m
    else (k, c) :: Memory.insert a b m

/-- Take the entry of address `a` out of the list. -/
def Memory.erase (a : Nat) : Memory → Memory
  | [] => []
  | (k, c) :: m => if a = k then m else (k, c) :: Memory.erase a m

/-- Store the byte `b` at `a`: writing what an unlisted address reads as takes the entry out. -/
def Memory.write (m : Memory) (a : Nat) (b : Byte) : Memory :=
  if b = Memory.unlisted a then Memory.erase a m else Memory.insert a b m

/-- The canonical form from address `lo` on: rising addresses below 0x1000, no entry an unlisted address would
read as. -/
def Memory.wfFrom (lo : Nat) : Memory → Bool
  | [] => true
  | (k, c) :: m => decide (lo ≤ k) && decide (k < memSize) && (c != Memory.unlisted k) && Memory.wfFrom (k + 1) m

/-- The canonical form. -/
def Memory.wf (m : Memory) : Bool := Memory.wfFrom 0 m

/-- The memory whose byte at every address `a` below 0x1000 is `f a`. -/
def Memory.ofBytes (f : Nat → Byte) : Memory :=
  (List.range memSize).filterMap fun a => if f a = Memory.unlisted a then none else some (a, f a)

/-- `MemRead(addr, 1)` (R13): an address of 0x1000 or more raises `MemOutOfRange` with it (R52). -/
def memRead (m : Memory) (a : Nat) : Except Fault Byte :=
  if a < memSize then .ok (m.read a) else .error (.memOutOfRange a)

/-- `MemWrite(addr, 1, v)` (R13, R52). -/
def memWrite (m : Memory) (a : Nat) (b : Byte) : Except Fault Memory :=
  if a < memSize then .ok (m.write a b) else .error (.memOutOfRange a)

/-- `n` reads at `a`, `a + 1`, ..., exact addresses in ascending order (R51, R52): the first address out of range is
the fault's (R233). -/
def readBlock (m : Memory) (a : Nat) : Nat → Except Fault (List Byte)
  | 0 => .ok []
  | n + 1 =>
    match memRead m a with
    | .error f => .error f
    | .ok b =>
      match readBlock m (a + 1) n with
      | .error f => .error f
      | .ok bs => .ok (b :: bs)

/-- The bytes written at `a`, `a + 1`, ..., exact addresses in ascending order (R51, R52). A fault answers no memory,
so nothing of the block is written (R14, R52). -/
def writeBlock (m : Memory) (a : Nat) : List Byte → Except Fault Memory
  | [] => .ok m
  | b :: bs =>
    match memWrite m a b with
    | .error f => .error f
    | .ok m' => writeBlock m' (a + 1) bs

end Sys2Proof.Machine
end

