-- ==== Sys2Proof/Machine/Ops.lean ====
section
/-! DEFINITION. Machine/Ops.lean: the named operations every meaning is written over: one update per piece of
state, the skip and jump primitives, the stack, the fetch and the advance, the timer policy, and raising a fault. -/

namespace Sys2Proof.Machine

/-! ## One update per piece of state -/

/-- `V[r]` (R12, R21). -/
def readV (s : State) (r : Reg) : Byte := s.v[r]

/-- `V[r] <- b` (R12, R21). -/
def writeV (s : State) (r : Reg) (b : Byte) : State := { s with v := s.v.set r b }

/-- The registers from `V[k]` on, one for each byte of the list (R175). -/
def setRegsFrom (v : Vector Byte 16) (k : Nat) : List Byte → Vector Byte 16
  | [] => v
  | b :: bs => setRegsFrom (v.setIfInBounds k b) (k + 1) bs

/-- `V[0]`, `V[1]`, ... become the bytes of the list. -/
def writeRegs (s : State) (bs : List Byte) : State := { s with v := setRegsFrom s.v 0 bs }

/-- `PC <- a`. -/
def setPc (s : State) (a : Word) : State := { s with pc := a }

/-- `I <- a`. -/
def setI (s : State) (a : Word) : State := { s with i := a }

/-- `MEM <- m`. -/
def setMem (s : State) (m : Memory) : State := { s with mem := m }

/-- `DT <- b`. -/
def setDt (s : State) (b : Byte) : State := { s with dt := b }

/-- `ST <- b`. -/
def setSt (s : State) (b : Byte) : State := { s with st := b }

/-- `FB <- fb`, and `display_changed <- true` (R105: only 00E0 and Dxyn do this). -/
def setScreen (s : State) (fb : Screen) : State := { s with fb := fb, displayChanged := true }

/-- `unknown_opcode <- true`, the diagnostic notice (R106). -/
def noteUnknown (s : State) : State := { s with unknownOpcode := true }

/-! ## Control flow primitives -/

/-- The address the executing instruction was fetched from: during the execute phase `PC` is
`(fetchPC + 2) mod 4096`, so it is `(PC - 2) mod 4096` (R24, R102, R212; DEDUCED, log 8). -/
def fetchPC (s : State) : Word := (s.pc - 2) &&& 0x0FFF

/-- `Skip()` where the condition holds: `PC + 2` in 16 bits, on the already advanced PC, not reduced modulo 4096
(R25, R103; D4, log 15). -/
def skipIf (c : Bool) (s : State) : State := { s with pc := if c then s.pc + 2 else s.pc }

/-- The push of `2nnn`: the pointer increments first, then the slot is stored; with `SP = 15` there is no slot
(R122; D3, log 16). -/
def pushReturn (s : State) : Except Fault State :=
  if s.sp = 15 then .error (.stackOverflow (fetchPC s))
  else .ok { s with sp := s.sp + 1, stack := s.stack.set (s.sp + 1).val s.pc (s.sp + 1).isLt }

/-- The pop of `00EE`: `PC` becomes the slot the pointer holds, then the pointer decrements; the slot keeps its
contents (R121). -/
def popReturn (s : State) : Except Fault State :=
  if s.sp = 0 then .error (.stackUnderflow (fetchPC s))
  else .ok { s with pc := s.stack[s.sp], sp := s.sp - 1 }

/-! ## The parts of a step around the instruction (R100) -/

/-- `DTACC` reaches zero this step: "saturating at zero (never negative)" (R240). -/
def timerDue (s : State) : Bool := s.dtacc - s.periodNs == 0

/-- A timer after the policy: down by one on a due step unless it is zero (R240). -/
def countDown (due : Bool) (b : Byte) : Byte := if b = 0 then 0 else if due then b - 1 else b

/-- `TimerPolicy()` (R240). The remainder of the period is discarded (C2, log 25). -/
def timerPolicy (s : State) : State :=
  { s with
    dt := countDown (timerDue s) s.dt
    st := countDown (timerDue s) s.st
    dtacc := if timerDue s then timerPeriodNs else s.dtacc - s.periodNs }

/-- `Fetch(a)`: two byte reads, big-endian; the first address out of range is the fault's (R54, R101). -/
def fetchWord (m : Memory) (a : Nat) : Except Fault Word :=
  match memRead m a with
  | .error f => .error f
  | .ok hi =>
    match memRead m (a + 1) with
    | .error f => .error f
    | .ok lo => .ok (joinBytes hi lo)

/-- The default advance, `(fetchPC + 2) mod 4096`, before the instruction executes (R102). -/
def advancePc (s : State) : State := { s with pc := BitVec.ofNat 16 ((s.pc.toNat + 2) % memSize) }

/-- A step's outputs start out false (R100). -/
def clearOutputs (s : State) : State := { s with displayChanged := false, unknownOpcode := false }

/-- The host's call is over: its inputs are used up and a step has been called (log 1, log 7). No state of the spec
changes. -/
def closeStep (s : State) : State :=
  { s with inputs := s.inputs.tail, ticks := s.ticks + 1, phase := .running }

/-- The faulted state (R14, R231), entered from the state `s` that the step started in: nothing else is written, no
register is saved, no mode changes and control goes nowhere (R234). There is no return from it (R234): only a new
construction clears `fault`. -/
def enterFault (s : State) (f : Fault) : State := { s with fault := some f }

/-- An operation's answer as a meaning's: a fault is raised, anything else is the next state. -/
def finish : Except Fault State → Result
  | .ok s => .next s
  | .error f => .fault f

/-! ## Outputs (R10, R107) -/

/-- `buzzer`: `ST > 0`, sampled at the end of the step (R107; D23, log 24). -/
def buzzer (s : State) : Bool := decide (0 < s.st.toNat)

/-- What a step reports to the host (R10). -/
structure Outputs where
  displayChanged : Bool
  framebuffer : Screen
  buzzer : Bool
  period : Nat
  unknownOpcode : Bool
  fault : Option Fault
  deriving DecidableEq, Repr

/-- The outputs of the step that ended in `s` (R10, R107). -/
def stepOutputs (s : State) : Outputs where
  displayChanged := s.displayChanged
  framebuffer := s.fb
  buzzer := buzzer s
  period := s.periodNs
  unknownOpcode := s.unknownOpcode
  fault := s.fault

/-- R232's code of a fault. -/
def faultCode : Fault → Nat
  | .memOutOfRange _ => 1
  | .stackOverflow _ => 2
  | .stackUnderflow _ => 3
  | .keyIndexOutOfRange _ => 4
  | .romTooLarge _ => 5

/-- R232's `info` of a fault. -/
def faultInfo : Fault → Nat
  | .memOutOfRange a => a
  | .stackOverflow a => a.toNat
  | .stackUnderflow a => a.toNat
  | .keyIndexOutOfRange k => k.toNat
  | .romTooLarge n => n

end Sys2Proof.Machine
end

