-- ==== Sys2Proof/Machine/Operands.lean ====
section
/-! DEFINITION. Machine/Operands.lean: the operand forms beside the registers: zero-extended immediates (R72), the
inputs of the executing step (R9), blocks of registers and bytes based at `I` (R51, R52), and decimal digits. -/

namespace Sys2Proof.Machine

/-- `zext_16(nnn)` (R72). -/
def zextAddress (nnn : BitVec 12) : Word := nnn.setWidth 16

/-- `zext_16(b)` of a byte (R72). -/
def zextByte (b : Byte) : Word := b.setWidth 16

/-- The inputs of the executing step: the host's call where `inputs` gives one, else free values of this step
(R9; D19, D20; log 1). -/
def stepInput (s : State) : StepInput :=
  match s.inputs with
  | [] => { keys := Config.freeKeys s.ticks, rnd := Config.freeRnd s.ticks }
  | a :: _ => a

/-- `keys[k]` of the executing step, for k in 0..15 (R9). -/
def keyDown (s : State) (k : Nat) : Bool := ((stepInput s).keys)[k]?.getD false

/-- `min { k : keys[k] }`, or none where no key is pressed (R212). -/
def lowestKey (s : State) : Option Nat := (List.range 16).find? (keyDown s)

/-- `V[0]`..`V[x]` in ascending order (R174). -/
def regsUpTo (s : State) (x : Reg) : List Byte := s.v.toList.take (x.val + 1)

/-- `n` bytes of memory from `I` on (R51). -/
def readFromI (s : State) (n : Nat) : Except Fault (List Byte) := readBlock s.mem s.i.toNat n

/-- The bytes stored to memory from `I` on (R51). -/
def writeFromI (s : State) (bs : List Byte) : Except Fault State :=
  match writeBlock s.mem s.i.toNat bs with
  | .error f => .error f
  | .ok m => .ok (setMem s m)

/-- Hundreds, tens and ones of a byte (R173). -/
def decimalDigits (b : Byte) : List Byte :=
  [BitVec.ofNat 8 (b.toNat / 100), BitVec.ofNat 8 (b.toNat / 10 % 10), BitVec.ofNat 8 (b.toNat % 10)]

/-- The address of the glyph of a digit, `0x050 + 5 * Vx`, with no mask (R172; D14, log 14). -/
def glyphAddress (b : Byte) : Word := BitVec.ofNat 16 (fontBase + 5 * b.toNat)

end Sys2Proof.Machine
end

