-- ==== Sys2Proof/Machine/Flags.lean ====
section
/-! DEFINITION. Machine/Flags.lean: the flag values an instruction leaves in `VF` (spec/10_state.md R22), and the
write of a result and its flag, the flag last. -/

namespace Sys2Proof.Machine

/-- A flag as the byte `VF` holds. -/
def flagByte (c : Bool) : Byte := if c then 1 else 0

/-- Carry of an 8-bit addition: the exact sum exceeds 255 (R146). -/
def carryOut (a b : Byte) : Bool := decide (255 < a.toNat + b.toNat)

/-- NOT borrow of `a - b` (R147, R149). -/
def notBorrow (a b : Byte) : Bool := decide (b.toNat ≤ a.toNat)

/-- Old bit 0 (R148). -/
def lowBit (a : Byte) : Bool := a.getLsbD 0

/-- Old bit 7 (R150). -/
def highBit (a : Byte) : Bool := a.getLsbD 7

/-- The flag of `Fx1E`: the exact sum carries past 16 bits, or its low 16 bits exceed 0x0FFF (R171; D29). -/
def indexOverflow (i : Word) (b : Byte) : Bool :=
  decide (0xFFFF < i.toNat + b.toNat) || decide (0x0FFF < (i.toNat + b.toNat) % 0x10000)

/-- The result to `V[x]`, then the flag to `VF`: with x = F the flag stays (R22). -/
def writeWithFlag (s : State) (x : Reg) (result : Byte) (flag : Bool) : State :=
  writeV (writeV s x result) regF (flagByte flag)

end Sys2Proof.Machine
end

