-- ==== Sys2Proof/Machine/Alu.lean ====
section
/-! DEFINITION. Machine/Alu.lean: register loads and the ALU (spec/42_alu.md). All values are unsigned 8-bit and all
arithmetic wraps modulo 256 (R151). -/

namespace Sys2Proof.Machine

/-- `6xkk` (R140). -/
def execLdImm (x : Reg) (kk : Byte) (s : State) : Result := .next (writeV s x kk)

/-- `7xkk` (R141): no flag. -/
def execAddImm (x : Reg) (kk : Byte) (s : State) : Result := .next (writeV s x (readV s x + kk))

/-- `8xy0` (R142): no flag (D7, log 10). -/
def execLdReg (x y : Reg) (s : State) : Result := .next (writeV s x (readV s y))

/-- `8xy1` (R143): no flag (D7, log 10). -/
def execOr (x y : Reg) (s : State) : Result := .next (writeV s x (readV s x ||| readV s y))

/-- `8xy2` (R144): no flag (D7, log 10). -/
def execAnd (x y : Reg) (s : State) : Result := .next (writeV s x (readV s x &&& readV s y))

/-- `8xy3` (R145): no flag (D7, log 10). -/
def execXor (x y : Reg) (s : State) : Result := .next (writeV s x (readV s x ^^^ readV s y))

/-- `8xy4` (R146): VF is the carry. -/
def execAddReg (x y : Reg) (s : State) : Result :=
  .next (writeWithFlag s x (readV s x + readV s y) (carryOut (readV s x) (readV s y)))

/-- `8xy5` (R147): VF is NOT borrow of Vx - Vy. -/
def execSub (x y : Reg) (s : State) : Result :=
  .next (writeWithFlag s x (readV s x - readV s y) (notBorrow (readV s x) (readV s y)))

/-- `8xy6` (R148): V[x] is shifted, V[y] is not read; VF is the old bit 0. -/
def execShr (x _y : Reg) (s : State) : Result :=
  .next (writeWithFlag s x (readV s x >>> 1) (lowBit (readV s x)))

/-- `8xy7` (R149): VF is NOT borrow of Vy - Vx. -/
def execSubn (x y : Reg) (s : State) : Result :=
  .next (writeWithFlag s x (readV s y - readV s x) (notBorrow (readV s y) (readV s x)))

/-- `8xyE` (R150): V[x] is shifted, V[y] is not read; VF is the old bit 7. -/
def execShl (x _y : Reg) (s : State) : Result :=
  .next (writeWithFlag s x (readV s x <<< 1) (highBit (readV s x)))

/-- `Cxkk` (R152): the step's random byte, masked. -/
def execRnd (x : Reg) (kk : Byte) (s : State) : Result := .next (writeV s x ((stepInput s).rnd &&& kk))

end Sys2Proof.Machine
end

