-- ==== Sys2Proof/Machine/ControlFlow.lean ====
section
/-! DEFINITION. Machine/ControlFlow.lean: jumps, call and return, skips (spec/41_control_flow.md). Every meaning
runs with `PC` already advanced (R100). -/

namespace Sys2Proof.Machine

/-- `1nnn` (R120). -/
def execJp (nnn : BitVec 12) (s : State) : Result := .next (setPc s (zextAddress nnn))

/-- `00EE` (R121). -/
def execRet (s : State) : Result := finish (popReturn s)

/-- `2nnn` (R122): the advanced PC is pushed. -/
def execCall (nnn : BitVec 12) (s : State) : Result :=
  finish <|
    match pushReturn s with
    | .error f => .error f
    | .ok t => .ok (setPc t (zextAddress nnn))

/-- `3xkk` (R123). -/
def execSeImm (x : Reg) (kk : Byte) (s : State) : Result := .next (skipIf (readV s x == kk) s)

/-- `4xkk` (R124). -/
def execSneImm (x : Reg) (kk : Byte) (s : State) : Result := .next (skipIf (readV s x != kk) s)

/-- `5xy0` (R125). -/
def execSeReg (x y : Reg) (s : State) : Result := .next (skipIf (readV s x == readV s y) s)

/-- `9xy0` (R126). -/
def execSneReg (x y : Reg) (s : State) : Result := .next (skipIf (readV s x != readV s y) s)

/-- `Bnnn` (R127): the exact sum, at most 0x10FE, always with `V[0]` (D4, log 15). -/
def execJpV0 (nnn : BitVec 12) (s : State) : Result :=
  .next (setPc s (zextAddress nnn + zextByte (readV s 0)))

end Sys2Proof.Machine
end

