-- ==== Sys2Proof/Machine/Display.lean ====
section
/-! DEFINITION. Machine/Display.lean: the framebuffer, the sprite pipeline and the two display instructions
(spec/44_display.md). -/

namespace Sys2Proof.Machine

/-- A framebuffer with every pixel off (R190). -/
def blankScreen : Screen := Vector.replicate 32 (Vector.replicate 64 false)

/-- The pixel at column `px`, row `py` (R33); off outside the screen. -/
def pixel (fb : Screen) (px py : Nat) : Bool :=
  match fb[py]? with
  | none => false
  | some row => row[px]?.getD false

/-- The framebuffer with the pixel at column `px`, row `py` set to `b`. -/
def setPixel (fb : Screen) (px py : Nat) (b : Bool) : Screen :=
  match fb[py]? with
  | none => fb
  | some row => fb.setIfInBounds py (row.setIfInBounds px b)

/-- The framebuffer while a sprite is drawn, and whether a collision has happened (R192). -/
structure Canvas where
  fb : Screen
  hit : Bool
  deriving DecidableEq, Repr

/-- A sprite bit 1 on a pixel: a pixel that was on is a collision, and the pixel is XORed with 1 (R192). -/
def plot (px py : Nat) (k : Canvas) : Canvas :=
  { fb := setPixel k.fb px py (!pixel k.fb px py), hit := k.hit || pixel k.fb px py }

/-- Bit of column `c` of a sprite row: bit 7 is the leftmost (R191; D9, log 12). -/
def spriteBit (row : Byte) (c : Nat) : Bool := row.getLsbD (7 - c)

/-- The columns `c` of a sprite row, in order; the right edge ends the row (R192, R194). -/
def drawColumns (x0 py : Nat) (row : Byte) : List Nat → Canvas → Canvas
  | [], k => k
  | c :: cs, k =>
    if screenWidth ≤ x0 + c then k
    else drawColumns x0 py row cs (if spriteBit row c then plot (x0 + c) py k else k)

/-- The rows of a sprite, the first at `py`; the bottom edge ends the sprite (R192, R194). -/
def drawRows (x0 : Nat) : Nat → List Byte → Canvas → Canvas
  | _, [], k => k
  | py, row :: rows, k =>
    if screenHeight ≤ py then k
    else drawRows x0 (py + 1) rows (drawColumns x0 py row (List.range 8) k)

/-- The sprite `rows` drawn with its top left at (x0, y0), from no collision (R192). -/
def drawSprite (fb : Screen) (x0 y0 : Nat) (rows : List Byte) : Canvas :=
  drawRows x0 y0 rows { fb := fb, hit := false }

/-- The start column, `V[x] mod 64` (R192). -/
def spriteX (s : State) (x : Reg) : Nat := (readV s x).toNat % screenWidth

/-- The start row, `V[y] mod 32` (R192). -/
def spriteY (s : State) (y : Reg) : Nat := (readV s y).toNat % screenHeight

/-- `00E0` (R190). -/
def execCls (s : State) : Result := .next (setScreen s blankScreen)

/-- `Dxyn` (R192, R193): all n bytes are read first (D10, log 20); VF is written after every pixel. -/
def execDrw (x y : Reg) (n : Fin 16) (s : State) : Result :=
  finish <|
    match readFromI s n.val with
    | .error f => .error f
    | .ok rows =>
      let drawn := drawSprite s.fb (spriteX s x) (spriteY s y) rows
      .ok (writeV (setScreen s drawn.fb) regF (flagByte drawn.hit))

end Sys2Proof.Machine
end

