-- ==== Sys2Proof/Machine/IndexMemory.lean ====
section
/-! DEFINITION. Machine/IndexMemory.lean: the index register and the memory blocks (spec/43_index_memory.md). No
instruction here but Annn, Fx1E and Fx29 changes `I` (R176; D12, log 13). -/

namespace Sys2Proof.Machine

/-- `Annn` (R170). -/
def execLdI (nnn : BitVec 12) (s : State) : Result := .next (setI s (zextAddress nnn))

/-- `Fx1E` (R171): a 16-bit addition, then the flag; with x = F the addend is the old VF. -/
def execAddI (x : Reg) (s : State) : Result :=
  .next (writeV (setI s (s.i + zextByte (readV s x))) regF (flagByte (indexOverflow s.i (readV s x))))

/-- `Fx29` (R172). -/
def execLdF (x : Reg) (s : State) : Result := .next (setI s (glyphAddress (readV s x)))

/-- `Fx33` (R173): the three decimal digits at I, I + 1, I + 2. -/
def execLdB (x : Reg) (s : State) : Result := finish (writeFromI s (decimalDigits (readV s x)))

/-- `Fx55` (R174): V[0]..V[x] to memory from I on. -/
def execLdMemStore (x : Reg) (s : State) : Result := finish (writeFromI s (regsUpTo s x))

/-- `Fx65` (R175): V[0]..V[x] from memory from I on. -/
def execLdMemLoad (x : Reg) (s : State) : Result :=
  finish <|
    match readFromI s (x.val + 1) with
    | .error f => .error f
    | .ok bs => .ok (writeRegs s bs)

end Sys2Proof.Machine
end

