-- ==== Sys2Proof/Machine/InputTimer.lean ====
section
/-! DEFINITION. Machine/InputTimer.lean: key input and the timer registers (spec/45_input_timer_regs.md). The step's
timer policy has run already (R100, R268). -/

namespace Sys2Proof.Machine

/-- The key number in V[x]: 16 or more is no key (R210, R211; D13, log 17). -/
def keyNumber (s : State) (x : Reg) : Except Fault Nat :=
  if 16 ≤ (readV s x).toNat then .error (.keyIndexOutOfRange (readV s x)) else .ok (readV s x).toNat

/-- `Ex9E` (R210). -/
def execSkp (x : Reg) (s : State) : Result :=
  finish <|
    match keyNumber s x with
    | .error f => .error f
    | .ok k => .ok (skipIf (keyDown s k) s)

/-- `ExA1` (R211). -/
def execSknp (x : Reg) (s : State) : Result :=
  finish <|
    match keyNumber s x with
    | .error f => .error f
    | .ok k => .ok (skipIf (!keyDown s k) s)

/-- `Fx0A` (R212): with no key pressed PC goes back to the fetch address, modulo 4096 (D6, C8, log 21); else V[x]
becomes the lowest pressed key. -/
def execLdK (x : Reg) (s : State) : Result :=
  .next <|
    match lowestKey s with
    | none => setPc s (fetchPC s)
    | some k => writeV s x (BitVec.ofNat 8 k)

/-- `Fx07` (R213). -/
def execLdVxDT (x : Reg) (s : State) : Result := .next (writeV s x s.dt)

/-- `Fx15` (R214): DTACC is not touched. -/
def execLdDTVx (x : Reg) (s : State) : Result := .next (setDt s (readV s x))

/-- `Fx18` (R215): DTACC is not touched. -/
def execLdSTVx (x : Reg) (s : State) : Result := .next (setSt s (readV s x))

end Sys2Proof.Machine
end

