-- ==== Sys2Proof/Machine/Cycle.lean ====
section
/-! DEFINITION. Machine/Cycle.lean: the step driver (spec/40_execution_cycle.md R100 to R108) and the host's other two
calls, construction (R260) and `load` (R263). -/

namespace Sys2Proof.Machine

/-- `Execute(decode(w))` (R105): the matching instruction, or the UNKNOWN no-op with its notice (R106; log 22). -/
def executeWord (w : Word) (s : State) : Result :=
  match decodeWord w with
  | .ok i => exec i s
  | .error _ => .next (noteUnknown s)

/-- The state a step's fetch starts from: outputs false, timer policy run (R100). -/
def startStep (s : State) : State := timerPolicy (clearOutputs s)

/-- The step ends in the faulted state entered from the state it started in; its outputs are false (R14, R231;
log 5, log 6). -/
def endInFault (s : State) (f : Fault) : State := closeStep (enterFault (clearOutputs s) f)

/-- What follows the execution of an instruction in a step that started in `s`: the step is closed, or, where a fault
was raised, commits nothing (R14, R100). -/
def concludeStep (s : State) : Result → Result
  | .next t => .next (closeStep t)
  | .fault f => .next (endInFault s f)
  | .refused r => .refused r

/-- One call of `step(keys, rnd)` (R100). A faulted core executes nothing and only reports (R108). -/
def stepCore (s : State) : Result :=
  match s.fault with
  | some _ => .next (closeStep (clearOutputs s))
  | none =>
    match fetchWord s.mem s.pc.toNat with
    | .error f => .next (endInFault s f)
    | .ok w => concludeStep s (executeWord w (advancePc (startStep s)))

/-- The reset byte at an address: the font table in the font region, `initMem` elsewhere (R31, R260). -/
def resetByte (p : Params) (a : Nat) : Byte :=
  if a < fontBase then p.initMem a else (p.fontTable.toList)[a - fontBase]?.getD (p.initMem a)

/-- Construction of the core with given parameters (R6, R260): what reset is. -/
def State.construct (p : Params) : State :=
  { State.reset with mem := Memory.ofBytes (resetByte p), periodNs := p.periodNs }

/-- The parameters of `State.reset`. -/
def defaultParams : Params where
  periodNs := Config.periodNs
  initMem := fun _ => 0
  fontTable := fontTable

/-- The host's `load(rom)` (R263): the bytes to 0x200 onward, no register changed. A longer ROM than 3584 bytes
faults the core with nothing written (D22). `load` is called once, before the first step, and is refused otherwise
(R247, R263, I9), as it is on a faulted core (log 7). -/
def State.load (rom : List Byte) (s : State) : Result :=
  match s.fault, s.phase with
  | some _, _ => .refused .loadIntoFaultedCore
  | none, .loaded => .refused .secondLoad
  | none, .running => .refused .loadAfterFirstStep
  | none, .constructed =>
    if romMax < rom.length then .next (enterFault s (.romTooLarge rom.length))
    else
      match writeBlock s.mem programBase rom with
      | .error f => .next (enterFault s f)
      | .ok m => .next { s with mem := m, phase := .loaded }

/-- The word `w` stored where the next step fetches, high byte first (R54), in a core that fetches: not faulted, with
both bytes of the word inside memory (else the program base is taken; log 18). -/
def placeWord (s : State) (w : Word) : State :=
  let a : Word := if s.pc.toNat + 1 < memSize then s.pc else BitVec.ofNat 16 programBase
  { s with
    pc := a
    fault := none
    mem := (s.mem.write a.toNat (highByte w)).write (a.toNat + 1) (lowByte w) }

end Sys2Proof.Machine
end

