-- ==== Sys2Proof/Machine/Step.lean ====
section
/-! DEFINITION. Machine/Step.lean: one step of the machine, and the host's placing of an instruction word. -/

namespace Sys2Proof.Machine

/-- One step: one host call of `step(keys, rnd)` (spec/40_execution_cycle.md R100). -/
def step (s : State) : Host.Outcome State Fault Refusal := stepCore s

/-- `s` with the instruction whose bits are `w`, numbered as spec/opcode_table.json numbers them (bits above `nbits`
are 0), stored where `step` fetches its next instruction (log 18). -/
def State.withFetchWord (s : State) (nbits w : Nat) : State :=
  placeWord s (BitVec.ofNat 16 (w % 2 ^ nbits))

end Sys2Proof.Machine
end

