-- ==== Sys2Proof/Safety.lean ====
section
/-! DEFINITION. Safety.lean: the terms claims use: faulted and parked states (spec/70_reset_and_hazards.md R266), the
invariant of the machine, and what stays the same from one state to another. -/

namespace Sys2Proof.Machine

/-! ## Ends of a run -/

/-- A parked state (R266): no fault, and the word at `PC` is `1nnn` with nnn = PC, a jump to itself. It does not say that
the host stops stepping, nor that the timers have stopped (D31, log 26). -/
def Parked (s : State) : Prop :=
  s.fault = none ∧ ∃ nnn : BitVec 12, fetchWord s.mem s.pc.toNat = .ok (formatNNN 0x1 nnn) ∧ zextAddress nnn = s.pc

/-! ## The invariant -/

/-- What every step keeps: memory in canonical form; PC at most 0x10FE (R25); every stack entry an address at most
0xFFF (R121) and slot 0 unused (R27); DTACC in 1..16,666,667 between steps (R30, R240); a period of at least 1 ns
(R6). -/
structure Inv (s : State) : Prop where
  mem_wf : s.mem.wf = true
  pc_le : s.pc.toNat ≤ 0x10FE
  stack_le : ∀ j : Fin 16, (s.stack[j]).toNat ≤ 0x0FFF
  slot_zero : s.stack[(0 : Fin 16)] = 0
  dtacc_pos : 0 < s.dtacc
  dtacc_le : s.dtacc ≤ timerPeriodNs
  period_pos : 1 ≤ s.periodNs

/-! ## What stays the same from `s` to `t` -/

/-- Every general register but the listed ones. -/
def KeepsRegs (except : List Reg) (s t : State) : Prop := ∀ r : Reg, r ∉ except → readV t r = readV s r

/-- Every byte of memory. -/
def KeepsMemory (s t : State) : Prop := ∀ a : Nat, t.mem.read a = s.mem.read a

/-- Every byte of memory outside the `len` bytes from `base` on. -/
def KeepsMemoryOutside (base len : Nat) (s t : State) : Prop :=
  ∀ a : Nat, (a < base ∨ base + len ≤ a) → t.mem.read a = s.mem.read a

/-- The stack and its pointer. -/
def KeepsStack (s t : State) : Prop := t.sp = s.sp ∧ t.stack = s.stack

/-- The two timers and the accumulator. -/
def KeepsTimers (s t : State) : Prop := t.dt = s.dt ∧ t.st = s.st ∧ t.dtacc = s.dtacc

/-- The framebuffer and its output flag. -/
def KeepsDisplay (s t : State) : Prop := t.fb = s.fb ∧ t.displayChanged = s.displayChanged

/-- The fault record, the step period, the notice, and the model's own fields. -/
def KeepsRest (s t : State) : Prop :=
  t.fault = s.fault ∧ t.periodNs = s.periodNs ∧ t.unknownOpcode = s.unknownOpcode ∧ t.inputs = s.inputs ∧
    t.ticks = s.ticks ∧ t.phase = s.phase

/-- Nothing but general registers of the list changes. -/
def OnlyRegs (written : List Reg) (s t : State) : Prop :=
  KeepsRegs written s t ∧ t.pc = s.pc ∧ t.i = s.i ∧ KeepsMemory s t ∧ KeepsStack s t ∧ KeepsTimers s t ∧
    KeepsDisplay s t ∧ KeepsRest s t

/-- Nothing but PC changes. -/
def OnlyPc (s t : State) : Prop :=
  KeepsRegs [] s t ∧ t.i = s.i ∧ KeepsMemory s t ∧ KeepsStack s t ∧ KeepsTimers s t ∧ KeepsDisplay s t ∧
    KeepsRest s t

/-- Nothing but the index register and registers of the list changes. -/
def OnlyIndexAndRegs (written : List Reg) (s t : State) : Prop :=
  KeepsRegs written s t ∧ t.pc = s.pc ∧ KeepsMemory s t ∧ KeepsStack s t ∧ KeepsTimers s t ∧ KeepsDisplay s t ∧
    KeepsRest s t

/-- Nothing but the `len` bytes of memory from `base` on changes. -/
def OnlyMemoryAt (base len : Nat) (s t : State) : Prop :=
  KeepsRegs [] s t ∧ t.pc = s.pc ∧ t.i = s.i ∧ KeepsMemoryOutside base len s t ∧ KeepsStack s t ∧ KeepsTimers s t ∧
    KeepsDisplay s t ∧ KeepsRest s t

/-- Nothing but the framebuffer, its output flag and registers of the list changes. -/
def OnlyDisplayAndRegs (written : List Reg) (s t : State) : Prop :=
  KeepsRegs written s t ∧ t.pc = s.pc ∧ t.i = s.i ∧ KeepsMemory s t ∧ KeepsStack s t ∧ KeepsTimers s t ∧
    KeepsRest s t

/-- Every register, memory byte, timer and pixel of the spec's state (R231), the step period among them; not `fault`,
the outputs and the model's own fields. -/
def SameMachine (s t : State) : Prop :=
  t.mem = s.mem ∧ t.v = s.v ∧ t.pc = s.pc ∧ t.i = s.i ∧ t.sp = s.sp ∧ t.stack = s.stack ∧ t.dt = s.dt ∧
    t.st = s.st ∧ t.dtacc = s.dtacc ∧ t.fb = s.fb ∧ t.periodNs = s.periodNs

/-- The next step fetches and decodes the instruction `i` (R101, R105). -/
def Fetches (s : State) (i : Instr) : Prop :=
  ∃ w : Word, fetchWord s.mem s.pc.toNat = .ok w ∧ decodeWord w = .ok i

end Sys2Proof.Machine
end

