-- ==== Sys2Proof/Certificates/Slice0/Obligations.lean ====
section
/-! DEFINITION. Certificates/Slice0/Obligations.lean: the statements for the provers. Rule numbers R<n>, decisions D<n> are
those of spec/; "log <n>" is notes/assumptions/<n>.md. -/

open Sys2Proof Sys2Proof.Machine

/-! ## Encoding (spec/30_encoding.md) -/

/-- Decoding the word, or the bytes, of any instruction gives it back, every operand at every value, and leaves the rest
of the bytes. -/
def Obligations.DecodeOfEncodeIsIdentity : Prop :=
  ∀ i : Instr, decodeWord (encode i) = .ok i ∧
    ∀ rest : List Byte, decode (encodeBytes i ++ rest) = .ok (i, rest)

/-- A word that decodes is the word of the instruction it decodes to: no bit of a word is dropped, the unread `y` of SHR
and SHL included. -/
def Obligations.EncodeOfDecodedWordIsTheWord : Prop :=
  ∀ (w : Word) (i : Instr), decodeWord w = .ok i → encode i = w

/-- The decoder agrees with the masks and patterns of the opcode table: a word that matches a row decodes to that row's
instruction, a word that decodes matches its instruction's row, and no word matches two rows (R76, R78). -/
def Obligations.DecoderAgreesWithOpcodeTable : Prop :=
  ∀ w : Word,
    (∀ r ∈ opcodeRows, r.holds w = true → ∃ i, decodeWord w = .ok i ∧ i.mnemonic = r.mnemonic) ∧
    (∀ i, decodeWord w = .ok i → ∃ r ∈ opcodeRows, r.holds w = true ∧ r.mnemonic = i.mnemonic) ∧
    (∀ r ∈ opcodeRows, ∀ r' ∈ opcodeRows, r.holds w = true → r'.holds w = true → r = r')

/-- The UNKNOWN words are exactly those R78 lists. (R78 is the spec's own inference from the pattern list.) -/
def Obligations.UnknownWordsAreTheListedOnes : Prop :=
  ∀ w : Word, (∃ e, decodeWord w = .error e) ↔
    (wordN0 w = 0x0 ∧ w ≠ 0x00E0 ∧ w ≠ 0x00EE) ∨
    ((wordN0 w = 0x5 ∨ wordN0 w = 0x9) ∧ (wordN w).val ≠ 0) ∨
    (wordN0 w = 0x8 ∧ (wordN w).val ∈ [0x8, 0x9, 0xA, 0xB, 0xC, 0xD, 0xF]) ∨
    (wordN0 w = 0xE ∧ (wordKK w).toNat ∉ [0x9E, 0xA1]) ∨
    (wordN0 w = 0xF ∧ (wordKK w).toNat ∉ [0x07, 0x0A, 0x15, 0x18, 0x1E, 0x29, 0x33, 0x55, 0x65])

/-- A few words written out in the spec's examples decode to the instructions they stand for. -/
def Obligations.ExampleWordsDecode : Prop :=
  decodeWord 0x00E0 = .ok .cls ∧ decodeWord 0x1234 = .ok (.jp 0x234) ∧ decodeWord 0x220A = .ok (.call 0x20A) ∧
    decodeWord 0x3210 = .ok (.seImm 2 0x10) ∧ decodeWord 0x7302 = .ok (.addImm 3 0x02) ∧
    decodeWord 0x8215 = .ok (.subReg 2 1) ∧ decodeWord 0xA22A = .ok (.ldI 0x22A) ∧
    decodeWord 0xD012 = .ok (.drw 0 1 2) ∧ decodeWord 0xE59E = .ok (.skp 5) ∧
    decodeWord 0xF255 = .ok (.ldMemStore 2) ∧ decodeWord 0x0123 = .error .unknown0

/-! ## The execution cycle (spec/40_execution_cycle.md, spec/60_exceptions.md) -/

/-- The word fetched with PC at most 0xFFE is the byte at PC in bits 15 to 8 and the byte after it in bits 7 to 0 (R54,
R101). A step of a core that has not faulted and whose next word decodes to `i` is `exec i` on the state after the timer
policy and the advance of PC; the step then closes, or, where the instruction raises a fault, ends in the faulted state
entered from the state the step started in (R100). Entering the faulted state as a next state is the model's form of
the spec's decision D1 (log 5). -/
def Obligations.StepRunsDecodedInstruction : Prop :=
  (∀ s : State, s.pc.toNat ≤ 0xFFE →
    fetchWord s.mem s.pc.toNat = .ok (s.mem.read s.pc.toNat ++ s.mem.read (s.pc.toNat + 1))) ∧
  (∀ (s : State) (i : Instr), s.fault = none → Fetches s i →
    step s =
      match exec i (advancePc (timerPolicy (clearOutputs s))) with
      | .next t => .next (closeStep t)
      | .fault f => .next (closeStep (enterFault (clearOutputs s) f))
      | .refused r => .refused r)

/-- A word that matches no pattern is a no-op with a notice: besides the timer policy and the default advance nothing
changes, and the step reports `unknown_opcode` (R106; the notice as an output flag is the spec's decision D21, log 22). -/
def Obligations.UnknownWordIsNoOpWithNotice : Prop :=
  ∀ (s : State) (w : Word) (e : Reject), s.fault = none → fetchWord s.mem s.pc.toNat = .ok w →
    decodeWord w = .error e →
    ∃ t, step s = .next t ∧ t.unknownOpcode = true ∧ t.displayChanged = false ∧
      t.pc.toNat = (s.pc.toNat + 2) % 4096 ∧ KeepsRegs [] s t ∧ KeepsMemory s t ∧ t.i = s.i ∧ KeepsStack s t ∧
      t.fb = s.fb ∧ t.dt = (timerPolicy s).dt ∧ t.st = (timerPolicy s).st ∧ t.dtacc = (timerPolicy s).dtacc ∧
      t.fault = none ∧ t.periodNs = s.periodNs

/-- A fetch at 0xFFF or above faults with the first address out of range, and the step commits nothing, its timer policy
included (R101, R231; the spec's decisions D2, D5 and D26, log 17). -/
def Obligations.FetchOutsideMemoryFaults : Prop :=
  ∀ s : State, s.fault = none → 0xFFF ≤ s.pc.toNat →
    ∃ t, step s = .next t ∧ SameMachine s t ∧
      t.fault = some (.memOutOfRange (if s.pc.toNat = 0xFFF then 0x1000 else s.pc.toNat)) ∧
      t.displayChanged = false ∧ t.unknownOpcode = false

/-- Whatever raises a fault, the step that raises it commits none of its writes: every register, memory byte, timer and
pixel holds its value from before the step (R231; the spec's decisions D1 and D26, log 5). -/
def Obligations.FaultingStepCommitsNothing : Prop :=
  ∀ s t : State, s.fault = none → step s = .next t → t.fault ≠ none → SameMachine s t

/-- A faulted core executes nothing: a step changes no state and reports the same fault, with the other outputs false
(R108; the spec's decision D1, log 5). -/
def Obligations.FaultedCoreChangesNothing : Prop :=
  ∀ (s : State) (f : Fault), s.fault = some f →
    ∃ t, step s = .next t ∧ SameMachine s t ∧ t.fault = some f ∧ t.displayChanged = false ∧ t.unknownOpcode = false

/-- Every step answers a next state: no instruction, and no word, stops the step loop (R230: an unimplemented opcode
never halts it; a raised fault is a next state in the model, log 5). -/
def Obligations.EveryStepAnswersNext : Prop :=
  ∀ s : State, ∃ t, step s = .next t

/-- Given the state, the keys and the period, a step depends on the random byte only where it fetches `Cxkk`: with any
other word, or none, every draw gives the same outcome (R109). -/
def Obligations.RandomByteReachesOnlyRnd : Prop :=
  ∀ (s : State) (k : Vector Bool 16) (r r' : Byte) (rest : List StepInput),
    (∀ x kk, ¬ Fetches s (.rnd x kk)) →
    step { s with inputs := ⟨k, r⟩ :: rest } = step { s with inputs := ⟨k, r'⟩ :: rest }

/-- The key snapshot reaches only `Ex9E`, `ExA1` and `Fx0A`: with any other word every snapshot gives the same outcome
(R235: key input is polled by these three). -/
def Obligations.KeysReachOnlyKeyInstructions : Prop :=
  ∀ (s : State) (k k' : Vector Bool 16) (r : Byte) (rest : List StepInput),
    (∀ x, ¬ Fetches s (.skp x) ∧ ¬ Fetches s (.sknp x) ∧ ¬ Fetches s (.ldK x)) →
    step { s with inputs := ⟨k, r⟩ :: rest } = step { s with inputs := ⟨k', r⟩ :: rest }

/-! ## Reset, construction and load (spec/70_reset_and_hazards.md) -/

/-- What construction leaves, for any parameters: registers zeroed, PC at 0x200, the framebuffer off, no fault, the period
given. I, SP, STACK, DT, ST and DTACC hold the values of the spec's decision D15 (log 9). -/
def Obligations.ConstructionSetsRegisters : Prop :=
  ∀ p : Params, ∃ t, t = State.construct p ∧ (∀ r : Reg, readV t r = 0) ∧ t.pc = 0x200 ∧ t.i = 0 ∧ t.sp = 0 ∧
    (∀ j : Fin 16, t.stack[j] = 0) ∧ t.dt = 0 ∧ t.st = 0 ∧ t.dtacc = 16666667 ∧
    (∀ px py : Nat, pixel t.fb px py = false) ∧ t.fault = none ∧ t.periodNs = p.periodNs

/-- What construction leaves in memory: the font table at 0x050..0x09F, `initMem` elsewhere, in canonical form (R31, R260;
the parameters are the spec's decisions D16 and D17). -/
def Obligations.ConstructionFillsMemory : Prop :=
  ∀ p : Params, (State.construct p).mem.wf = true ∧ ∀ a : Nat, a < 0x1000 →
    (State.construct p).mem.read a =
      if h : 0x050 ≤ a ∧ a < 0x0A0 then p.fontTable[a - 0x050]'(by omega) else p.initMem a

/-- `State.reset` is the construction with the period `Config.periodNs`, `initMem` 0 everywhere and the default font:
the model's choices of logs 2, 3 and 4. -/
def Obligations.ResetIsDefaultConstruction : Prop :=
  State.construct ⟨Config.periodNs, fun _ => 0, fontTable⟩ = State.reset

/-- `load` before the first step of at most 3584 bytes puts byte j at 0x200 + j and changes no other byte and no register
(R263; its size bound and its one call are the spec's decision D22). -/
def Obligations.LoadCopiesRomTo0x200 : Prop :=
  ∀ (s : State) (rom : List Byte), s.mem.wf = true → s.fault = none → s.phase = .constructed →
    rom.length ≤ 3584 →
    ∃ t, State.load rom s = .next t ∧ (∀ j : Nat, j < rom.length → some (t.mem.read (0x200 + j)) = rom[j]?) ∧
      KeepsMemoryOutside 0x200 rom.length s t ∧ t.mem.wf = true ∧ KeepsRegs [] s t ∧ t.pc = s.pc ∧ t.i = s.i ∧
      KeepsStack s t ∧ KeepsTimers s t ∧ KeepsDisplay s t ∧ t.fault = none ∧ t.periodNs = s.periodNs ∧
      t.phase = .loaded

/-- A ROM of more than 3584 bytes faults with no byte written; a second `load`, and a `load` after the first step, are
refused (R263; the spec's decision D22, log 7). -/
def Obligations.LoadOutOfBoundsOrOrderStops : Prop :=
  (∀ (s : State) (rom : List Byte), s.fault = none → s.phase = .constructed → 3584 < rom.length →
    ∃ t, State.load rom s = .next t ∧ SameMachine s t ∧ t.fault = some (.romTooLarge rom.length)) ∧
  (∀ (s : State) (rom : List Byte), s.fault = none → s.phase = .loaded →
    State.load rom s = .refused .secondLoad) ∧
  (∀ (s t : State) (rom : List Byte), s.fault = none → step s = .next t → t.fault = none →
    State.load rom t = .refused .loadAfterFirstStep)

/-! ## Invariants -/

/-- The invariant holds right after reset. (It includes values of the spec's decision D15, log 9.) -/
def Obligations.InvariantHoldsAtReset : Prop := Inv State.reset

/-- The invariant holds after construction with any well-formed parameters, and `load` keeps it. -/
def Obligations.ConstructAndLoadMeetInvariant : Prop :=
  (∀ p : Params, p.wellFormed = true → Inv (State.construct p)) ∧
  (∀ (s t : State) (rom : List Byte), Inv s → State.load rom s = .next t → Inv t)

/-- Every step keeps the invariant, from every state that has it: memory stays canonical, PC stays at most 0x10FE, every
stack entry an address below 0x1000 with slot 0 unused, DTACC in 1..16,666,667, the period positive. -/
def Obligations.EveryStepKeepsInvariant : Prop :=
  ∀ s t : State, Inv s → step s = .next t → Inv t

/-- Canonical memories that read alike at every address are equal as data. -/
def Obligations.CanonicalMemoriesReadingAlikeAreEqual : Prop :=
  ∀ m m' : Memory, m.wf = true → m'.wf = true → (∀ a : Nat, m.read a = m'.read a) → m = m'

/-! ## Timers (spec/60_exceptions.md) -/

/-- R240: the accumulator loses the period, saturating at zero; when it reaches zero both timers count down by one if not
zero and it starts again at 16,666,667, the remainder discarded; nothing else changes. Every step that ends without a
fault has run it exactly once: its accumulator and its timers are those the policy leaves, but for the timer that the
step's own `Fx15` or `Fx18` writes. -/
def Obligations.TimerPolicyCountsDown : Prop :=
  (∀ s : State,
    (s.dtacc ≤ s.periodNs →
      (timerPolicy s).dtacc = 16666667 ∧ (timerPolicy s).dt.toNat = s.dt.toNat - 1 ∧
        (timerPolicy s).st.toNat = s.st.toNat - 1) ∧
    (s.periodNs < s.dtacc →
      (timerPolicy s).dtacc + s.periodNs = s.dtacc ∧ (timerPolicy s).dt = s.dt ∧ (timerPolicy s).st = s.st) ∧
    (timerPolicy s).pc = s.pc ∧ (timerPolicy s).i = s.i ∧ KeepsRegs [] s (timerPolicy s) ∧
    KeepsMemory s (timerPolicy s) ∧ KeepsStack s (timerPolicy s) ∧ KeepsDisplay s (timerPolicy s) ∧
    KeepsRest s (timerPolicy s)) ∧
  (∀ s t : State, s.fault = none → step s = .next t → t.fault = none →
    t.dtacc = (timerPolicy s).dtacc ∧
    (t.dt = (timerPolicy s).dt ∨ ∃ x, Fetches s (.ldDTVx x)) ∧
    (t.st = (timerPolicy s).st ∨ ∃ x, Fetches s (.ldSTVx x)))

/-- The cadence that follows (R241, the spec's own inference from R240): from DTACC = 16,666,667, with
K = ceil(16,666,667 / period_ns), a run of n steps without a fault leaves DTACC at 16,666,667 less (n mod K) periods,
whatever the instructions do; and the timer policy of the next step counts the timers down exactly when n + 1 is a
multiple of K. -/
def Obligations.TimersTickEveryKthStep : Prop :=
  ∀ (s t : State) (n : Nat), s.fault = none → s.dtacc = 16666667 → 1 ≤ s.periodNs →
    Sys2Proof.core.run n s = .next t → t.fault = none →
    t.dtacc = 16666667 - n % ((16666667 + s.periodNs - 1) / s.periodNs) * s.periodNs ∧
    ((timerPolicy t).dt.toNat =
      if (n + 1) % ((16666667 + s.periodNs - 1) / s.periodNs) = 0 then t.dt.toNat - 1 else t.dt.toNat) ∧
    ((timerPolicy t).st.toNat =
      if (n + 1) % ((16666667 + s.periodNs - 1) / s.periodNs) = 0 then t.st.toNat - 1 else t.st.toNat)

/-! ## Control flow (spec/41_control_flow.md) -/

/-- `1nnn`: PC becomes nnn; nothing else changes (R120). -/
def Obligations.JpSetsPc : Prop :=
  ∀ (nnn : BitVec 12) (s : State), ∃ t, exec (.jp nnn) s = .next t ∧ t.pc.toNat = nnn.toNat ∧ OnlyPc s t

/-- `Bnnn`: PC becomes the exact sum of nnn and V[0] (R127; no reduction is the spec's decision D4, log 15). -/
def Obligations.JpV0AddsV0Exactly : Prop :=
  ∀ (nnn : BitVec 12) (s : State),
    ∃ t, exec (.jpV0 nnn) s = .next t ∧ t.pc.toNat = nnn.toNat + (readV s 0).toNat ∧ OnlyPc s t

/-- `2nnn` with a free slot: the pointer goes up by one, the advanced PC is stored in the slot it now names, PC becomes
nnn, and no other slot and nothing else changes (R122; the fifteen slots are the spec's decision D3, log 16). -/
def Obligations.CallPushesReturnAddress : Prop :=
  ∀ (nnn : BitVec 12) (s : State), s.sp ≠ 15 →
    ∃ t, exec (.call nnn) s = .next t ∧ t.pc.toNat = nnn.toNat ∧ t.sp.val = s.sp.val + 1 ∧
      (∀ j : Fin 16, t.stack[j] = if j.val = s.sp.val + 1 then s.pc else s.stack[j]) ∧ KeepsRegs [] s t ∧
      t.i = s.i ∧ KeepsMemory s t ∧ KeepsTimers s t ∧ KeepsDisplay s t ∧ KeepsRest s t

/-- `00EE` with a non-empty stack: PC becomes the slot the pointer names, the pointer goes down by one, the slots keep
their contents, and nothing else changes (R121; the spec's decision D3, log 16). -/
def Obligations.RetPopsReturnAddress : Prop :=
  ∀ s : State, s.sp ≠ 0 →
    ∃ t, exec .ret s = .next t ∧ t.pc = s.stack[s.sp] ∧ t.sp.val + 1 = s.sp.val ∧ t.stack = s.stack ∧
      KeepsRegs [] s t ∧ t.i = s.i ∧ KeepsMemory s t ∧ KeepsTimers s t ∧ KeepsDisplay s t ∧ KeepsRest s t

/-- A call with the stack full and a return with it empty fault, with the address they were fetched from, and the step
commits nothing (R121, R122, R231; the spec's decisions D1 and D3, logs 5 and 16). -/
def Obligations.StackLimitsFault : Prop :=
  (∀ (s : State) (nnn : BitVec 12), s.fault = none → Fetches s (.call nnn) → s.sp = 15 →
    ∃ t, step s = .next t ∧ SameMachine s t ∧ t.fault = some (.stackOverflow s.pc)) ∧
  (∀ s : State, s.fault = none → Fetches s .ret → s.sp = 0 →
    ∃ t, step s = .next t ∧ SameMachine s t ∧ t.fault = some (.stackUnderflow s.pc))

/-- A call and then a return, with PC anywhere in between, come back to the instruction after the call with the stack
pointer as it was (R121, R122). -/
def Obligations.CallThenRetReturns : Prop :=
  ∀ (nnn : BitVec 12) (s t : State) (a : Word), exec (.call nnn) s = .next t →
    ∃ u, exec .ret { t with pc := a } = .next u ∧ u.pc = s.pc ∧ u.sp = s.sp

/-- The register skips: PC goes up by 2 in 16 bits where the comparison holds, else it stays; nothing else changes (R123 to
R126; the skip is not reduced modulo 4096 by the spec's decision D4, log 15). -/
def Obligations.RegisterSkipsAddTwo : Prop :=
  ∀ (x y : Reg) (kk : Byte) (s : State),
    (∃ t, exec (.seImm x kk) s = .next t ∧ t.pc = (if readV s x = kk then s.pc + 2 else s.pc) ∧ OnlyPc s t) ∧
    (∃ t, exec (.sneImm x kk) s = .next t ∧ t.pc = (if readV s x ≠ kk then s.pc + 2 else s.pc) ∧ OnlyPc s t) ∧
    (∃ t, exec (.seReg x y) s = .next t ∧ t.pc = (if readV s x = readV s y then s.pc + 2 else s.pc) ∧
      OnlyPc s t) ∧
    (∃ t, exec (.sneReg x y) s = .next t ∧ t.pc = (if readV s x ≠ readV s y then s.pc + 2 else s.pc) ∧ OnlyPc s t)

/-! ## Loads and the ALU (spec/42_alu.md) -/

/-- R140: `6xkk` puts kk in V[x], VF too where x = F, and changes nothing else. -/
def Obligations.LdImmLoadsByte : Prop :=
  ∀ (x : Reg) (kk : Byte) (s : State), decodeWord (formatXKK 0x6 x kk) = .ok (.ldImm x kk) ∧
    ∃ t, exec (.ldImm x kk) s = .next t ∧ readV t x = kk ∧ OnlyRegs [x] s t

/-- R141: `7xkk` puts (V[x] + kk) mod 256 in V[x]; VF is unchanged unless x = F, when it receives the sum. -/
def Obligations.AddImmWrapsWithoutFlag : Prop :=
  ∀ (x : Reg) (kk : Byte) (s : State), decodeWord (formatXKK 0x7 x kk) = .ok (.addImm x kk) ∧
    ∃ t, exec (.addImm x kk) s = .next t ∧ (readV t x).toNat = ((readV s x).toNat + kk.toNat) % 256 ∧
      OnlyRegs [x] s t

/-- `8xy0` to `8xy3`: assign, OR, AND, XOR, bit by bit; VF is not written unless it is the destination (R142 to R145; that
is the spec's decision D7, log 10). -/
def Obligations.LogicOpsLeaveVf : Prop :=
  ∀ (x y : Reg) (s : State),
    (∃ t, exec (.ldReg x y) s = .next t ∧ readV t x = readV s y ∧ OnlyRegs [x] s t) ∧
    (∃ t, exec (.orReg x y) s = .next t ∧
      (∀ k : Nat, (readV t x).getLsbD k = ((readV s x).getLsbD k || (readV s y).getLsbD k)) ∧ OnlyRegs [x] s t) ∧
    (∃ t, exec (.andReg x y) s = .next t ∧
      (∀ k : Nat, (readV t x).getLsbD k = ((readV s x).getLsbD k && (readV s y).getLsbD k)) ∧ OnlyRegs [x] s t) ∧
    (∃ t, exec (.xorReg x y) s = .next t ∧
      (∀ k : Nat, (readV t x).getLsbD k = ((readV s x).getLsbD k ^^ (readV s y).getLsbD k)) ∧ OnlyRegs [x] s t)

/-- R146: `8xy4` puts the sum mod 256 in V[x] and then 1 in VF where the exact sum exceeds 255, else 0; with x = F VF
holds the flag; the old VF is an operand where y = F. -/
def Obligations.AddRegSetsCarry : Prop :=
  ∀ (x y : Reg) (s : State), decodeWord (formatXYN 0x8 x y 0x4) = .ok (.addReg x y) ∧
    ∃ t, exec (.addReg x y) s = .next t ∧
      (readV t 15 = if 255 < (readV s x).toNat + (readV s y).toNat then 1 else 0) ∧
      (x ≠ 15 → (readV t x).toNat = ((readV s x).toNat + (readV s y).toNat) % 256) ∧ OnlyRegs [x, 15] s t

/-- `8xy5` and `8xy7` put the difference mod 256 in V[x] and then NOT borrow in VF (R147, R149; that SUBN's number is 7 is
the spec's decision D8, log 11). -/
def Obligations.SubtractionsSetNotBorrow : Prop :=
  ∀ (x y : Reg) (s : State),
    (decodeWord (formatXYN 0x8 x y 0x5) = .ok (.subReg x y) ∧
      ∃ t, exec (.subReg x y) s = .next t ∧
        (readV t 15 = if (readV s x).toNat < (readV s y).toNat then 0 else 1) ∧
        (x ≠ 15 → (readV t x).toNat = (256 + (readV s x).toNat - (readV s y).toNat) % 256) ∧
        OnlyRegs [x, 15] s t) ∧
    (decodeWord (formatXYN 0x8 x y 0x7) = .ok (.subnReg x y) ∧
      ∃ t, exec (.subnReg x y) s = .next t ∧
        (readV t 15 = if (readV s y).toNat < (readV s x).toNat then 0 else 1) ∧
        (x ≠ 15 → (readV t x).toNat = (256 + (readV s y).toNat - (readV s x).toNat) % 256) ∧
        OnlyRegs [x, 15] s t)

/-- `8xy6` and `8xyE` shift V[x] by one, whatever y is, and then put the bit shifted out in VF (R148, R150; the numbers 6
and E are the spec's decision D8, log 11). -/
def Obligations.ShiftsSetBitShiftedOut : Prop :=
  ∀ (x y : Reg) (s : State),
    (decodeWord (formatXYN 0x8 x y 0x6) = .ok (.shr x y) ∧
      ∃ t, exec (.shr x y) s = .next t ∧ (readV t 15).toNat = (readV s x).toNat % 2 ∧
        (x ≠ 15 → (readV t x).toNat = (readV s x).toNat / 2) ∧ OnlyRegs [x, 15] s t) ∧
    (decodeWord (formatXYN 0x8 x y 0xE) = .ok (.shl x y) ∧
      ∃ t, exec (.shl x y) s = .next t ∧ (readV t 15).toNat = (readV s x).toNat / 128 ∧
        (x ≠ 15 → (readV t x).toNat = 2 * (readV s x).toNat % 256) ∧ OnlyRegs [x, 15] s t)

/-- `Cxkk` puts the step's random byte AND kk in V[x], for every byte the host may draw (R152; a free draw is the spec's
decision D19, log 1). -/
def Obligations.RndMasksTheDraw : Prop :=
  ∀ (x : Reg) (kk r : Byte) (k : Vector Bool 16) (rest : List StepInput) (s : State), s.inputs = ⟨k, r⟩ :: rest →
    ∃ t, exec (.rnd x kk) s = .next t ∧ (∀ j : Nat, (readV t x).getLsbD j = (r.getLsbD j && kk.getLsbD j)) ∧
      OnlyRegs [x] s t

/-- `Cxkk` runs whatever the host's calls are: with no call listed the draw is a free value, and the bits outside kk are
still 0 (R152; log 1). -/
def Obligations.RndKeepsBitsOutsideMaskZero : Prop :=
  ∀ (x : Reg) (kk : Byte) (s : State),
    ∃ t, exec (.rnd x kk) s = .next t ∧ (∀ j : Nat, kk.getLsbD j = false → (readV t x).getLsbD j = false) ∧
      OnlyRegs [x] s t

/-! ## Index register and memory blocks (spec/43_index_memory.md) -/

/-- R170: `Annn` puts nnn in I and changes nothing else. -/
def Obligations.LdILoadsAddress : Prop :=
  ∀ (nnn : BitVec 12) (s : State), decodeWord (formatNNN 0xA nnn) = .ok (.ldI nnn) ∧
    ∃ t, exec (.ldI nnn) s = .next t ∧ t.i.toNat = nnn.toNat ∧ OnlyIndexAndRegs [] s t

/-- R171: `Fx1E` adds V[x] to I in 16 bits and then puts in VF whether the sum carries past 16 bits or its low 16 bits exceed
0x0FFF, which is whether the exact sum exceeds 0x0FFF (that the two agree is the spec's own inference, its decision D29);
with x = F the addend is the old VF. -/
def Obligations.AddISetsIndexOverflow : Prop :=
  ∀ (x : Reg) (s : State), decodeWord (formatXKK 0xF x 0x1E) = .ok (.addI x) ∧
    ∃ t, exec (.addI x) s = .next t ∧ t.i.toNat = (s.i.toNat + (readV s x).toNat) % 0x10000 ∧
      (readV t 15 = if 0xFFFF < s.i.toNat + (readV s x).toNat ∨ 0x0FFF < t.i.toNat then 1 else 0) ∧
      (readV t 15 = if 0x0FFF < s.i.toNat + (readV s x).toNat then 1 else 0) ∧ OnlyIndexAndRegs [15] s t

/-- `Fx29` points I at 0x050 + 5 V[x], exact, with no mask (R172; no mask is the spec's decision D14, log 14). -/
def Obligations.LdFPointsAtGlyph : Prop :=
  ∀ (x : Reg) (s : State),
    ∃ t, exec (.ldF x) s = .next t ∧ t.i.toNat = 0x050 + 5 * (readV s x).toNat ∧ OnlyIndexAndRegs [] s t

/-- `Fx33` with I + 2 in memory stores the hundreds, tens and ones of V[x] at I, I + 1, I + 2, changes no other byte, and
leaves I and every register (R173). -/
def Obligations.LdBStoresDecimalDigits : Prop :=
  ∀ (x : Reg) (s : State), s.mem.wf = true → s.i.toNat + 2 < 0x1000 →
    ∃ t, exec (.ldB x) s = .next t ∧ (t.mem.read s.i.toNat).toNat = (readV s x).toNat / 100 ∧
      (t.mem.read (s.i.toNat + 1)).toNat = (readV s x).toNat / 10 % 10 ∧
      (t.mem.read (s.i.toNat + 2)).toNat = (readV s x).toNat % 10 ∧ OnlyMemoryAt s.i.toNat 3 s t

/-- `Fx55` with I + x in memory stores V[0]..V[x] from I on, changes no other byte, and leaves I and every register
(R174; I unchanged is the spec's decision D12, log 13). -/
def Obligations.StoreBlockWritesRegisters : Prop :=
  ∀ (x : Reg) (s : State), s.mem.wf = true → s.i.toNat + x.val < 0x1000 →
    ∃ t, exec (.ldMemStore x) s = .next t ∧
      (∀ r : Reg, r.val ≤ x.val → t.mem.read (s.i.toNat + r.val) = readV s r) ∧
      OnlyMemoryAt s.i.toNat (x.val + 1) s t

/-- `Fx65` with I + x in memory loads V[0]..V[x] from I on and changes nothing else (R175; I unchanged is the spec's
decision D12, log 13). -/
def Obligations.LoadBlockReadsMemory : Prop :=
  ∀ (x : Reg) (s : State), s.i.toNat + x.val < 0x1000 →
    ∃ t, exec (.ldMemLoad x) s = .next t ∧
      (∀ r : Reg, r.val ≤ x.val → readV t r = s.mem.read (s.i.toNat + r.val)) ∧
      (∀ r : Reg, x.val < r.val → readV t r = readV s r) ∧ OnlyRegs ((List.range (x.val + 1)).map (Fin.ofNat 16)) s t

/-- A block access that leaves memory raises MemOutOfRange with the first address out of range, whatever the rows a sprite
would clip (R52, R173 to R175, R192, R233; failing is the spec's decision D2, and reading every sprite byte its decision
D10, logs 17 and 20). -/
def Obligations.BlockAccessesOutsideMemoryFault : Prop :=
  ∀ (x y : Reg) (n : Fin 16) (s : State),
    (0x1000 ≤ s.i.toNat + 2 → exec (.ldB x) s = .fault (.memOutOfRange (max s.i.toNat 0x1000))) ∧
    (0x1000 ≤ s.i.toNat + x.val → exec (.ldMemStore x) s = .fault (.memOutOfRange (max s.i.toNat 0x1000))) ∧
    (0x1000 ≤ s.i.toNat + x.val → exec (.ldMemLoad x) s = .fault (.memOutOfRange (max s.i.toNat 0x1000))) ∧
    (0 < n.val → 0x1000 ≤ s.i.toNat + n.val - 1 →
      exec (.drw x y n) s = .fault (.memOutOfRange (max s.i.toNat 0x1000)))

/-- Storing V[0]..V[x] and loading them again, with anything done to the registers in between, gives the stored registers
back (R174, R175). -/
def Obligations.StoreThenLoadRestoresRegisters : Prop :=
  ∀ (x : Reg) (s t u : State), s.mem.wf = true → exec (.ldMemStore x) s = .next t → u.mem = t.mem → u.i = t.i →
    ∃ w, exec (.ldMemLoad x) u = .next w ∧ ∀ r : Reg, r.val ≤ x.val → readV w r = readV s r

/-! ## Display (spec/44_display.md) -/

/-- R190: `00E0` turns every pixel off and sets display_changed, also where the screen is clear already; VF and the rest
are unchanged. -/
def Obligations.ClsClearsAndSignals : Prop :=
  decodeWord 0x00E0 = .ok .cls ∧
  ∀ s : State, ∃ t, exec .cls s = .next t ∧ (∀ px py : Nat, pixel t.fb px py = false) ∧ t.displayChanged = true ∧
    OnlyDisplayAndRegs [] s t

/-- `Dxyn` with its n bytes in memory (n = 0 needs none) inverts exactly the screen pixels its sprite covers, the bytes
from I on placed at (V[x] mod 64, V[y] mod 32) and clipped at the right and bottom edges: row r of the sprite is the byte
at I + r, and its column c is bit 7 - c. VF is 1 where a covered pixel was on before and 0 otherwise; display_changed is
set; nothing else changes (R191 to R194; bit 7 leftmost is the spec's decision D9, log 12, and the order of VF's write its
decision D10, log 20). -/
def Obligations.DrwInvertsCoveredPixels : Prop :=
  ∀ (x y : Reg) (n : Fin 16) (s : State), (n.val = 0 ∨ s.i.toNat + n.val ≤ 0x1000) →
    ∃ (t : State) (covers : Nat → Nat → Bool), exec (.drw x y n) s = .next t ∧
      (∀ px py : Nat, covers px py = true ↔
        (readV s x).toNat % 64 ≤ px ∧ px < (readV s x).toNat % 64 + 8 ∧ px < 64 ∧
        (readV s y).toNat % 32 ≤ py ∧ py < (readV s y).toNat % 32 + n.val ∧ py < 32 ∧
        (s.mem.read (s.i.toNat + (py - (readV s y).toNat % 32))).getLsbD (7 - (px - (readV s x).toNat % 64)) = true) ∧
      (∀ px py : Nat, pixel t.fb px py = (pixel s.fb px py ^^ covers px py)) ∧
      ((∃ px py : Nat, covers px py = true ∧ pixel s.fb px py = true) → readV t 15 = 1) ∧
      ((¬ ∃ px py : Nat, covers px py = true ∧ pixel s.fb px py = true) → readV t 15 = 0) ∧
      t.displayChanged = true ∧ OnlyDisplayAndRegs [15] s t

/-- The same sprite drawn twice at the same place, from coordinates that are not VF, restores every pixel, and the second
drawing reports a collision where the first turned a pixel on (R195, the spec's own inference from R192). -/
def Obligations.DrawingTwiceRestoresScreen : Prop :=
  ∀ (x y : Reg) (n : Fin 16) (s t u : State), x ≠ 15 → y ≠ 15 → exec (.drw x y n) s = .next t →
    exec (.drw x y n) t = .next u →
    (∀ px py : Nat, pixel u.fb px py = pixel s.fb px py) ∧
    ((∃ px py : Nat, pixel s.fb px py = false ∧ pixel t.fb px py = true) → readV u 15 = 1)

/-! ## Keys and timer registers (spec/45_input_timer_regs.md) -/

/-- `Ex9E` and `ExA1` with V[x] a key number: PC goes up by 2 where the key is pressed, or is not, in the host's snapshot;
nothing else changes. With V[x] of 16 or more they raise KeyIndexOutOfRange (R210, R211; the fault is the spec's decision
D13, log 17, and the exact skip its decision D4, log 15). -/
def Obligations.KeySkipsTestTheSnapshot : Prop :=
  ∀ (x : Reg) (s : State),
    (∀ (k : Fin 16) (keys : Vector Bool 16) (r : Byte) (rest : List StepInput), s.inputs = ⟨keys, r⟩ :: rest →
      (readV s x).toNat = k.val →
      (∃ t, exec (.skp x) s = .next t ∧ t.pc = (if keys[k] then s.pc + 2 else s.pc) ∧ OnlyPc s t) ∧
      (∃ t, exec (.sknp x) s = .next t ∧ t.pc = (if keys[k] then s.pc else s.pc + 2) ∧ OnlyPc s t)) ∧
    (16 ≤ (readV s x).toNat →
      exec (.skp x) s = .fault (.keyIndexOutOfRange (readV s x)) ∧
      exec (.sknp x) s = .fault (.keyIndexOutOfRange (readV s x)))

/-- The key instructions run whatever the host's calls are: with no call listed the snapshot is a free value (R210 to R212;
log 1). `Fx0A` then either finds no key pressed, puts PC back at the fetch address, which is PC - 2 modulo 4096 (the
spec's decision D6, logs 8 and 21), and keeps V[x]; or it keeps PC and puts the lowest pressed key in V[x]. -/
def Obligations.KeyInstructionsComplete : Prop :=
  ∀ (x : Reg) (s : State),
    ((readV s x).toNat < 16 →
      (∃ t, exec (.skp x) s = .next t ∧ (t.pc = s.pc ∨ t.pc = s.pc + 2) ∧ OnlyPc s t) ∧
      (∃ t, exec (.sknp x) s = .next t ∧ (t.pc = s.pc ∨ t.pc = s.pc + 2) ∧ OnlyPc s t)) ∧
    (∃ t, exec (.ldK x) s = .next t ∧
      (((∀ j : Fin 16, (stepInput s).keys[j] = false) ∧ t.pc.toNat = (s.pc.toNat + 4094) % 4096 ∧ OnlyPc s t) ∨
        ∃ k : Fin 16, (stepInput s).keys[k] = true ∧ (∀ j : Fin 16, j < k → (stepInput s).keys[j] = false) ∧
          (readV t x).toNat = k.val ∧ OnlyRegs [x] s t))

/-- `Fx0A` with a key pressed in the host's snapshot puts the lowest pressed key in V[x] and changes nothing else (R212). -/
def Obligations.LdKStoresLowestKey : Prop :=
  ∀ (x : Reg) (s : State) (keys : Vector Bool 16) (r : Byte) (rest : List StepInput) (k : Fin 16),
    s.inputs = ⟨keys, r⟩ :: rest → keys[k] = true → (∀ j : Fin 16, j < k → keys[j] = false) →
    ∃ t, exec (.ldK x) s = .next t ∧ (readV t x).toNat = k.val ∧ OnlyRegs [x] s t

/-- A step that fetches `Fx0A` with no key pressed leaves PC where it was, at 0xFFE too, while the timer policy runs, and
changes no register and no memory (R212, which takes the rewind modulo 4096 by the spec's decision D6, log 21). -/
def Obligations.LdKWaitsWithPcUnchanged : Prop :=
  ∀ (x : Reg) (s : State) (keys : Vector Bool 16) (r : Byte) (rest : List StepInput), s.fault = none →
    Fetches s (.ldK x) → s.inputs = ⟨keys, r⟩ :: rest → (∀ j : Fin 16, keys[j] = false) →
    ∃ t, step s = .next t ∧ t.pc = s.pc ∧ t.fault = none ∧ KeepsRegs [] s t ∧ KeepsMemory s t ∧ t.i = s.i ∧
      KeepsStack s t ∧ t.fb = s.fb ∧ t.dt = (timerPolicy s).dt ∧ t.st = (timerPolicy s).st ∧
      t.dtacc = (timerPolicy s).dtacc

/-- The moves between V[x] and the timers. `Fx07` reads DT as it is after the step's timer policy;
`Fx15` and `Fx18` leave the accumulator; the buzzer output after `Fx18` is V[x] > 0 (R213 to R215; that the buzzer is sampled after the execution is the spec's
decision D23, log 24). -/
def Obligations.TimerRegisterMoves : Prop :=
  ∀ (x : Reg) (s : State),
    (decodeWord (formatXKK 0xF x 0x07) = .ok (.ldVxDT x) ∧
      ∃ t, exec (.ldVxDT x) s = .next t ∧ readV t x = s.dt ∧ OnlyRegs [x] s t) ∧
    (s.fault = none → Fetches s (.ldVxDT x) → ∃ t, step s = .next t ∧ readV t x = (timerPolicy s).dt) ∧
    (decodeWord (formatXKK 0xF x 0x15) = .ok (.ldDTVx x) ∧
      ∃ t, exec (.ldDTVx x) s = .next t ∧ t.dt = readV s x ∧ t.st = s.st ∧ t.dtacc = s.dtacc ∧ KeepsRegs [] s t ∧
        t.pc = s.pc ∧ t.i = s.i ∧ KeepsMemory s t ∧ KeepsStack s t ∧ KeepsDisplay s t ∧ KeepsRest s t) ∧
    (decodeWord (formatXKK 0xF x 0x18) = .ok (.ldSTVx x) ∧
      ∃ t, exec (.ldSTVx x) s = .next t ∧ t.st = readV s x ∧ buzzer t = decide (readV s x ≠ 0) ∧ t.dt = s.dt ∧
        t.dtacc = s.dtacc ∧ KeepsRegs [] s t ∧ t.pc = s.pc ∧ t.i = s.i ∧ KeepsMemory s t ∧ KeepsStack s t ∧
        KeepsDisplay s t ∧ KeepsRest s t)

/-! ## Whole-machine rules -/

/-- Only `00E0` and `Dxyn` change the framebuffer or set display_changed (R33, R105). -/
def Obligations.OnlyDisplayInstructionsTouchScreen : Prop :=
  ∀ (i : Instr) (s t : State), exec i s = .next t → ¬ KeepsDisplay s t →
    i = .cls ∨ ∃ x y n, i = .drw x y n

/-- Only `Fx33` and `Fx55` change memory, and only in the bytes of their block (R51). -/
def Obligations.OnlyBlockStoresChangeMemory : Prop :=
  ∀ (i : Instr) (s t : State) (a : Nat), s.mem.wf = true → exec i s = .next t → t.mem.read a ≠ s.mem.read a →
    (∃ x, i = .ldB x ∧ s.i.toNat ≤ a ∧ a < s.i.toNat + 3) ∨
    (∃ x, i = .ldMemStore x ∧ s.i.toNat ≤ a ∧ a < s.i.toNat + (x.val + 1))

/-- Only `2nnn` and `00EE` change the stack or its pointer, only `Annn`, `Fx1E` and `Fx29` the index register, only `Fx15`
the delay timer, only `Fx18` the sound timer; no instruction writes DTACC, the period or the fault record (R26 to R30).
That `Fx55` and `Fx65` leave the index register is the spec's decision D12 (log 13), and that no instruction writes DTACC
is the spec's own inference (R216). -/
def Obligations.SpecialStateHasItsWritersOnly : Prop :=
  ∀ (i : Instr) (s t : State), exec i s = .next t →
    (¬ KeepsStack s t → i = .ret ∨ ∃ nnn, i = .call nnn) ∧
    (t.i ≠ s.i → (∃ nnn, i = .ldI nnn) ∨ ∃ x, i = .addI x ∨ i = .ldF x) ∧
    (t.dt ≠ s.dt → ∃ x, i = .ldDTVx x) ∧ (t.st ≠ s.st → ∃ x, i = .ldSTVx x) ∧ t.dtacc = s.dtacc ∧ KeepsRest s t

/-- Only the jumps, call, return, skips and an `Fx0A` that waits, with no key of its snapshot pressed, write PC; every other
instruction, and an `Fx0A` with a key pressed, leaves it at the default advance (R25, whose list the spec marks with its
decisions D4 and D6, logs 15 and 21). -/
def Obligations.PcHasItsWritersOnly : Prop :=
  ∀ (i : Instr) (s t : State), exec i s = .next t → t.pc ≠ s.pc →
    i = .ret ∨ (∃ nnn, i = .jp nnn ∨ i = .call nnn ∨ i = .jpV0 nnn) ∨
    (∃ x kk, i = .seImm x kk ∨ i = .sneImm x kk) ∨ (∃ x y, i = .seReg x y ∨ i = .sneReg x y) ∨
    (∃ x, i = .skp x ∨ i = .sknp x) ∨
    ∃ x, i = .ldK x ∧ ∀ j : Fin 16, (stepInput s).keys[j] = false

/-- From a parked state a step leads to a parked state and changes nothing but DT, ST and DTACC (R266; the definition of
parked is the spec's decision D31, log 26). -/
def Obligations.ParkedStepChangesOnlyTimers : Prop :=
  ∀ s : State, Parked s → ∃ t, step s = .next t ∧ Parked t ∧ t.pc = s.pc ∧ t.mem = s.mem ∧ KeepsRegs [] s t ∧
    t.i = s.i ∧ KeepsStack s t ∧ t.fb = s.fb ∧ t.fault = none ∧ t.periodNs = s.periodNs ∧
    t.displayChanged = false ∧ t.unknownOpcode = false
end

