-- ==== Sys2Proof/Laws/State.lean ====
section
/-! SUPPORT. Laws/State.lean: one lemma per field per update, true by rfl, so that no proof unfolds a record update. -/

namespace Sys2Proof.Machine

/-! ### writeV -/

@[simp] theorem writeV_mem (s : State) (r : Reg) (b : Byte) : (writeV s r b).mem = s.mem := rfl
@[simp] theorem writeV_v (s : State) (r : Reg) (b : Byte) : (writeV s r b).v = s.v.set r b := rfl
@[simp] theorem writeV_pc (s : State) (r : Reg) (b : Byte) : (writeV s r b).pc = s.pc := rfl
@[simp] theorem writeV_i (s : State) (r : Reg) (b : Byte) : (writeV s r b).i = s.i := rfl
@[simp] theorem writeV_sp (s : State) (r : Reg) (b : Byte) : (writeV s r b).sp = s.sp := rfl
@[simp] theorem writeV_stack (s : State) (r : Reg) (b : Byte) : (writeV s r b).stack = s.stack := rfl
@[simp] theorem writeV_dt (s : State) (r : Reg) (b : Byte) : (writeV s r b).dt = s.dt := rfl
@[simp] theorem writeV_st (s : State) (r : Reg) (b : Byte) : (writeV s r b).st = s.st := rfl
@[simp] theorem writeV_dtacc (s : State) (r : Reg) (b : Byte) : (writeV s r b).dtacc = s.dtacc := rfl
@[simp] theorem writeV_fb (s : State) (r : Reg) (b : Byte) : (writeV s r b).fb = s.fb := rfl
@[simp] theorem writeV_fault (s : State) (r : Reg) (b : Byte) : (writeV s r b).fault = s.fault := rfl
@[simp] theorem writeV_periodNs (s : State) (r : Reg) (b : Byte) : (writeV s r b).periodNs = s.periodNs := rfl
@[simp] theorem writeV_displayChanged (s : State) (r : Reg) (b : Byte) : (writeV s r b).displayChanged = s.displayChanged := rfl
@[simp] theorem writeV_unknownOpcode (s : State) (r : Reg) (b : Byte) : (writeV s r b).unknownOpcode = s.unknownOpcode := rfl
@[simp] theorem writeV_inputs (s : State) (r : Reg) (b : Byte) : (writeV s r b).inputs = s.inputs := rfl
@[simp] theorem writeV_ticks (s : State) (r : Reg) (b : Byte) : (writeV s r b).ticks = s.ticks := rfl
@[simp] theorem writeV_phase (s : State) (r : Reg) (b : Byte) : (writeV s r b).phase = s.phase := rfl

/-! ### writeRegs -/

@[simp] theorem writeRegs_mem (s : State) (bs : List Byte) : (writeRegs s bs).mem = s.mem := rfl
@[simp] theorem writeRegs_v (s : State) (bs : List Byte) : (writeRegs s bs).v = setRegsFrom s.v 0 bs := rfl
@[simp] theorem writeRegs_pc (s : State) (bs : List Byte) : (writeRegs s bs).pc = s.pc := rfl
@[simp] theorem writeRegs_i (s : State) (bs : List Byte) : (writeRegs s bs).i = s.i := rfl
@[simp] theorem writeRegs_sp (s : State) (bs : List Byte) : (writeRegs s bs).sp = s.sp := rfl
@[simp] theorem writeRegs_stack (s : State) (bs : List Byte) : (writeRegs s bs).stack = s.stack := rfl
@[simp] theorem writeRegs_dt (s : State) (bs : List Byte) : (writeRegs s bs).dt = s.dt := rfl
@[simp] theorem writeRegs_st (s : State) (bs : List Byte) : (writeRegs s bs).st = s.st := rfl
@[simp] theorem writeRegs_dtacc (s : State) (bs : List Byte) : (writeRegs s bs).dtacc = s.dtacc := rfl
@[simp] theorem writeRegs_fb (s : State) (bs : List Byte) : (writeRegs s bs).fb = s.fb := rfl
@[simp] theorem writeRegs_fault (s : State) (bs : List Byte) : (writeRegs s bs).fault = s.fault := rfl
@[simp] theorem writeRegs_periodNs (s : State) (bs : List Byte) : (writeRegs s bs).periodNs = s.periodNs := rfl
@[simp] theorem writeRegs_displayChanged (s : State) (bs : List Byte) : (writeRegs s bs).displayChanged = s.displayChanged := rfl
@[simp] theorem writeRegs_unknownOpcode (s : State) (bs : List Byte) : (writeRegs s bs).unknownOpcode = s.unknownOpcode := rfl
@[simp] theorem writeRegs_inputs (s : State) (bs : List Byte) : (writeRegs s bs).inputs = s.inputs := rfl
@[simp] theorem writeRegs_ticks (s : State) (bs : List Byte) : (writeRegs s bs).ticks = s.ticks := rfl
@[simp] theorem writeRegs_phase (s : State) (bs : List Byte) : (writeRegs s bs).phase = s.phase := rfl

/-! ### setPc -/

@[simp] theorem setPc_mem (s : State) (a : Word) : (setPc s a).mem = s.mem := rfl
@[simp] theorem setPc_v (s : State) (a : Word) : (setPc s a).v = s.v := rfl
@[simp] theorem setPc_pc (s : State) (a : Word) : (setPc s a).pc = a := rfl
@[simp] theorem setPc_i (s : State) (a : Word) : (setPc s a).i = s.i := rfl
@[simp] theorem setPc_sp (s : State) (a : Word) : (setPc s a).sp = s.sp := rfl
@[simp] theorem setPc_stack (s : State) (a : Word) : (setPc s a).stack = s.stack := rfl
@[simp] theorem setPc_dt (s : State) (a : Word) : (setPc s a).dt = s.dt := rfl
@[simp] theorem setPc_st (s : State) (a : Word) : (setPc s a).st = s.st := rfl
@[simp] theorem setPc_dtacc (s : State) (a : Word) : (setPc s a).dtacc = s.dtacc := rfl
@[simp] theorem setPc_fb (s : State) (a : Word) : (setPc s a).fb = s.fb := rfl
@[simp] theorem setPc_fault (s : State) (a : Word) : (setPc s a).fault = s.fault := rfl
@[simp] theorem setPc_periodNs (s : State) (a : Word) : (setPc s a).periodNs = s.periodNs := rfl
@[simp] theorem setPc_displayChanged (s : State) (a : Word) : (setPc s a).displayChanged = s.displayChanged := rfl
@[simp] theorem setPc_unknownOpcode (s : State) (a : Word) : (setPc s a).unknownOpcode = s.unknownOpcode := rfl
@[simp] theorem setPc_inputs (s : State) (a : Word) : (setPc s a).inputs = s.inputs := rfl
@[simp] theorem setPc_ticks (s : State) (a : Word) : (setPc s a).ticks = s.ticks := rfl
@[simp] theorem setPc_phase (s : State) (a : Word) : (setPc s a).phase = s.phase := rfl
@[simp] theorem readV_setPc (s : State) (a : Word) (q : Reg) : readV (setPc s a) q = readV s q := rfl

/-! ### setI -/

@[simp] theorem setI_mem (s : State) (a : Word) : (setI s a).mem = s.mem := rfl
@[simp] theorem setI_v (s : State) (a : Word) : (setI s a).v = s.v := rfl
@[simp] theorem setI_pc (s : State) (a : Word) : (setI s a).pc = s.pc := rfl
@[simp] theorem setI_i (s : State) (a : Word) : (setI s a).i = a := rfl
@[simp] theorem setI_sp (s : State) (a : Word) : (setI s a).sp = s.sp := rfl
@[simp] theorem setI_stack (s : State) (a : Word) : (setI s a).stack = s.stack := rfl
@[simp] theorem setI_dt (s : State) (a : Word) : (setI s a).dt = s.dt := rfl
@[simp] theorem setI_st (s : State) (a : Word) : (setI s a).st = s.st := rfl
@[simp] theorem setI_dtacc (s : State) (a : Word) : (setI s a).dtacc = s.dtacc := rfl
@[simp] theorem setI_fb (s : State) (a : Word) : (setI s a).fb = s.fb := rfl
@[simp] theorem setI_fault (s : State) (a : Word) : (setI s a).fault = s.fault := rfl
@[simp] theorem setI_periodNs (s : State) (a : Word) : (setI s a).periodNs = s.periodNs := rfl
@[simp] theorem setI_displayChanged (s : State) (a : Word) : (setI s a).displayChanged = s.displayChanged := rfl
@[simp] theorem setI_unknownOpcode (s : State) (a : Word) : (setI s a).unknownOpcode = s.unknownOpcode := rfl
@[simp] theorem setI_inputs (s : State) (a : Word) : (setI s a).inputs = s.inputs := rfl
@[simp] theorem setI_ticks (s : State) (a : Word) : (setI s a).ticks = s.ticks := rfl
@[simp] theorem setI_phase (s : State) (a : Word) : (setI s a).phase = s.phase := rfl
@[simp] theorem readV_setI (s : State) (a : Word) (q : Reg) : readV (setI s a) q = readV s q := rfl

/-! ### setMem -/

@[simp] theorem setMem_mem (s : State) (m : Memory) : (setMem s m).mem = m := rfl
@[simp] theorem setMem_v (s : State) (m : Memory) : (setMem s m).v = s.v := rfl
@[simp] theorem setMem_pc (s : State) (m : Memory) : (setMem s m).pc = s.pc := rfl
@[simp] theorem setMem_i (s : State) (m : Memory) : (setMem s m).i = s.i := rfl
@[simp] theorem setMem_sp (s : State) (m : Memory) : (setMem s m).sp = s.sp := rfl
@[simp] theorem setMem_stack (s : State) (m : Memory) : (setMem s m).stack = s.stack := rfl
@[simp] theorem setMem_dt (s : State) (m : Memory) : (setMem s m).dt = s.dt := rfl
@[simp] theorem setMem_st (s : State) (m : Memory) : (setMem s m).st = s.st := rfl
@[simp] theorem setMem_dtacc (s : State) (m : Memory) : (setMem s m).dtacc = s.dtacc := rfl
@[simp] theorem setMem_fb (s : State) (m : Memory) : (setMem s m).fb = s.fb := rfl
@[simp] theorem setMem_fault (s : State) (m : Memory) : (setMem s m).fault = s.fault := rfl
@[simp] theorem setMem_periodNs (s : State) (m : Memory) : (setMem s m).periodNs = s.periodNs := rfl
@[simp] theorem setMem_displayChanged (s : State) (m : Memory) : (setMem s m).displayChanged = s.displayChanged := rfl
@[simp] theorem setMem_unknownOpcode (s : State) (m : Memory) : (setMem s m).unknownOpcode = s.unknownOpcode := rfl
@[simp] theorem setMem_inputs (s : State) (m : Memory) : (setMem s m).inputs = s.inputs := rfl
@[simp] theorem setMem_ticks (s : State) (m : Memory) : (setMem s m).ticks = s.ticks := rfl
@[simp] theorem setMem_phase (s : State) (m : Memory) : (setMem s m).phase = s.phase := rfl
@[simp] theorem readV_setMem (s : State) (m : Memory) (q : Reg) : readV (setMem s m) q = readV s q := rfl

/-! ### setDt -/

@[simp] theorem setDt_mem (s : State) (b : Byte) : (setDt s b).mem = s.mem := rfl
@[simp] theorem setDt_v (s : State) (b : Byte) : (setDt s b).v = s.v := rfl
@[simp] theorem setDt_pc (s : State) (b : Byte) : (setDt s b).pc = s.pc := rfl
@[simp] theorem setDt_i (s : State) (b : Byte) : (setDt s b).i = s.i := rfl
@[simp] theorem setDt_sp (s : State) (b : Byte) : (setDt s b).sp = s.sp := rfl
@[simp] theorem setDt_stack (s : State) (b : Byte) : (setDt s b).stack = s.stack := rfl
@[simp] theorem setDt_dt (s : State) (b : Byte) : (setDt s b).dt = b := rfl
@[simp] theorem setDt_st (s : State) (b : Byte) : (setDt s b).st = s.st := rfl
@[simp] theorem setDt_dtacc (s : State) (b : Byte) : (setDt s b).dtacc = s.dtacc := rfl
@[simp] theorem setDt_fb (s : State) (b : Byte) : (setDt s b).fb = s.fb := rfl
@[simp] theorem setDt_fault (s : State) (b : Byte) : (setDt s b).fault = s.fault := rfl
@[simp] theorem setDt_periodNs (s : State) (b : Byte) : (setDt s b).periodNs = s.periodNs := rfl
@[simp] theorem setDt_displayChanged (s : State) (b : Byte) : (setDt s b).displayChanged = s.displayChanged := rfl
@[simp] theorem setDt_unknownOpcode (s : State) (b : Byte) : (setDt s b).unknownOpcode = s.unknownOpcode := rfl
@[simp] theorem setDt_inputs (s : State) (b : Byte) : (setDt s b).inputs = s.inputs := rfl
@[simp] theorem setDt_ticks (s : State) (b : Byte) : (setDt s b).ticks = s.ticks := rfl
@[simp] theorem setDt_phase (s : State) (b : Byte) : (setDt s b).phase = s.phase := rfl
@[simp] theorem readV_setDt (s : State) (b : Byte) (q : Reg) : readV (setDt s b) q = readV s q := rfl

/-! ### setSt -/

@[simp] theorem setSt_mem (s : State) (b : Byte) : (setSt s b).mem = s.mem := rfl
@[simp] theorem setSt_v (s : State) (b : Byte) : (setSt s b).v = s.v := rfl
@[simp] theorem setSt_pc (s : State) (b : Byte) : (setSt s b).pc = s.pc := rfl
@[simp] theorem setSt_i (s : State) (b : Byte) : (setSt s b).i = s.i := rfl
@[simp] theorem setSt_sp (s : State) (b : Byte) : (setSt s b).sp = s.sp := rfl
@[simp] theorem setSt_stack (s : State) (b : Byte) : (setSt s b).stack = s.stack := rfl
@[simp] theorem setSt_dt (s : State) (b : Byte) : (setSt s b).dt = s.dt := rfl
@[simp] theorem setSt_st (s : State) (b : Byte) : (setSt s b).st = b := rfl
@[simp] theorem setSt_dtacc (s : State) (b : Byte) : (setSt s b).dtacc = s.dtacc := rfl
@[simp] theorem setSt_fb (s : State) (b : Byte) : (setSt s b).fb = s.fb := rfl
@[simp] theorem setSt_fault (s : State) (b : Byte) : (setSt s b).fault = s.fault := rfl
@[simp] theorem setSt_periodNs (s : State) (b : Byte) : (setSt s b).periodNs = s.periodNs := rfl
@[simp] theorem setSt_displayChanged (s : State) (b : Byte) : (setSt s b).displayChanged = s.displayChanged := rfl
@[simp] theorem setSt_unknownOpcode (s : State) (b : Byte) : (setSt s b).unknownOpcode = s.unknownOpcode := rfl
@[simp] theorem setSt_inputs (s : State) (b : Byte) : (setSt s b).inputs = s.inputs := rfl
@[simp] theorem setSt_ticks (s : State) (b : Byte) : (setSt s b).ticks = s.ticks := rfl
@[simp] theorem setSt_phase (s : State) (b : Byte) : (setSt s b).phase = s.phase := rfl
@[simp] theorem readV_setSt (s : State) (b : Byte) (q : Reg) : readV (setSt s b) q = readV s q := rfl

/-! ### setScreen -/

@[simp] theorem setScreen_mem (s : State) (fb : Screen) : (setScreen s fb).mem = s.mem := rfl
@[simp] theorem setScreen_v (s : State) (fb : Screen) : (setScreen s fb).v = s.v := rfl
@[simp] theorem setScreen_pc (s : State) (fb : Screen) : (setScreen s fb).pc = s.pc := rfl
@[simp] theorem setScreen_i (s : State) (fb : Screen) : (setScreen s fb).i = s.i := rfl
@[simp] theorem setScreen_sp (s : State) (fb : Screen) : (setScreen s fb).sp = s.sp := rfl
@[simp] theorem setScreen_stack (s : State) (fb : Screen) : (setScreen s fb).stack = s.stack := rfl
@[simp] theorem setScreen_dt (s : State) (fb : Screen) : (setScreen s fb).dt = s.dt := rfl
@[simp] theorem setScreen_st (s : State) (fb : Screen) : (setScreen s fb).st = s.st := rfl
@[simp] theorem setScreen_dtacc (s : State) (fb : Screen) : (setScreen s fb).dtacc = s.dtacc := rfl
@[simp] theorem setScreen_fb (s : State) (fb : Screen) : (setScreen s fb).fb = fb := rfl
@[simp] theorem setScreen_fault (s : State) (fb : Screen) : (setScreen s fb).fault = s.fault := rfl
@[simp] theorem setScreen_periodNs (s : State) (fb : Screen) : (setScreen s fb).periodNs = s.periodNs := rfl
@[simp] theorem setScreen_displayChanged (s : State) (fb : Screen) : (setScreen s fb).displayChanged = true := rfl
@[simp] theorem setScreen_unknownOpcode (s : State) (fb : Screen) : (setScreen s fb).unknownOpcode = s.unknownOpcode := rfl
@[simp] theorem setScreen_inputs (s : State) (fb : Screen) : (setScreen s fb).inputs = s.inputs := rfl
@[simp] theorem setScreen_ticks (s : State) (fb : Screen) : (setScreen s fb).ticks = s.ticks := rfl
@[simp] theorem setScreen_phase (s : State) (fb : Screen) : (setScreen s fb).phase = s.phase := rfl
@[simp] theorem readV_setScreen (s : State) (fb : Screen) (q : Reg) : readV (setScreen s fb) q = readV s q := rfl

/-! ### noteUnknown -/

@[simp] theorem noteUnknown_mem (s : State) : (noteUnknown s).mem = s.mem := rfl
@[simp] theorem noteUnknown_v (s : State) : (noteUnknown s).v = s.v := rfl
@[simp] theorem noteUnknown_pc (s : State) : (noteUnknown s).pc = s.pc := rfl
@[simp] theorem noteUnknown_i (s : State) : (noteUnknown s).i = s.i := rfl
@[simp] theorem noteUnknown_sp (s : State) : (noteUnknown s).sp = s.sp := rfl
@[simp] theorem noteUnknown_stack (s : State) : (noteUnknown s).stack = s.stack := rfl
@[simp] theorem noteUnknown_dt (s : State) : (noteUnknown s).dt = s.dt := rfl
@[simp] theorem noteUnknown_st (s : State) : (noteUnknown s).st = s.st := rfl
@[simp] theorem noteUnknown_dtacc (s : State) : (noteUnknown s).dtacc = s.dtacc := rfl
@[simp] theorem noteUnknown_fb (s : State) : (noteUnknown s).fb = s.fb := rfl
@[simp] theorem noteUnknown_fault (s : State) : (noteUnknown s).fault = s.fault := rfl
@[simp] theorem noteUnknown_periodNs (s : State) : (noteUnknown s).periodNs = s.periodNs := rfl
@[simp] theorem noteUnknown_displayChanged (s : State) : (noteUnknown s).displayChanged = s.displayChanged := rfl
@[simp] theorem noteUnknown_unknownOpcode (s : State) : (noteUnknown s).unknownOpcode = true := rfl
@[simp] theorem noteUnknown_inputs (s : State) : (noteUnknown s).inputs = s.inputs := rfl
@[simp] theorem noteUnknown_ticks (s : State) : (noteUnknown s).ticks = s.ticks := rfl
@[simp] theorem noteUnknown_phase (s : State) : (noteUnknown s).phase = s.phase := rfl
@[simp] theorem readV_noteUnknown (s : State) (q : Reg) : readV (noteUnknown s) q = readV s q := rfl

/-! ### skipIf -/

@[simp] theorem skipIf_mem (c : Bool) (s : State) : (skipIf c s).mem = s.mem := rfl
@[simp] theorem skipIf_v (c : Bool) (s : State) : (skipIf c s).v = s.v := rfl
@[simp] theorem skipIf_pc (c : Bool) (s : State) : (skipIf c s).pc = if c then s.pc + 2 else s.pc := rfl
@[simp] theorem skipIf_i (c : Bool) (s : State) : (skipIf c s).i = s.i := rfl
@[simp] theorem skipIf_sp (c : Bool) (s : State) : (skipIf c s).sp = s.sp := rfl
@[simp] theorem skipIf_stack (c : Bool) (s : State) : (skipIf c s).stack = s.stack := rfl
@[simp] theorem skipIf_dt (c : Bool) (s : State) : (skipIf c s).dt = s.dt := rfl
@[simp] theorem skipIf_st (c : Bool) (s : State) : (skipIf c s).st = s.st := rfl
@[simp] theorem skipIf_dtacc (c : Bool) (s : State) : (skipIf c s).dtacc = s.dtacc := rfl
@[simp] theorem skipIf_fb (c : Bool) (s : State) : (skipIf c s).fb = s.fb := rfl
@[simp] theorem skipIf_fault (c : Bool) (s : State) : (skipIf c s).fault = s.fault := rfl
@[simp] theorem skipIf_periodNs (c : Bool) (s : State) : (skipIf c s).periodNs = s.periodNs := rfl
@[simp] theorem skipIf_displayChanged (c : Bool) (s : State) : (skipIf c s).displayChanged = s.displayChanged := rfl
@[simp] theorem skipIf_unknownOpcode (c : Bool) (s : State) : (skipIf c s).unknownOpcode = s.unknownOpcode := rfl
@[simp] theorem skipIf_inputs (c : Bool) (s : State) : (skipIf c s).inputs = s.inputs := rfl
@[simp] theorem skipIf_ticks (c : Bool) (s : State) : (skipIf c s).ticks = s.ticks := rfl
@[simp] theorem skipIf_phase (c : Bool) (s : State) : (skipIf c s).phase = s.phase := rfl
@[simp] theorem readV_skipIf (c : Bool) (s : State) (r : Reg) : readV (skipIf c s) r = readV s r := rfl

/-! ### timerPolicy -/

@[simp] theorem timerPolicy_mem (s : State) : (timerPolicy s).mem = s.mem := rfl
@[simp] theorem timerPolicy_v (s : State) : (timerPolicy s).v = s.v := rfl
@[simp] theorem timerPolicy_pc (s : State) : (timerPolicy s).pc = s.pc := rfl
@[simp] theorem timerPolicy_i (s : State) : (timerPolicy s).i = s.i := rfl
@[simp] theorem timerPolicy_sp (s : State) : (timerPolicy s).sp = s.sp := rfl
@[simp] theorem timerPolicy_stack (s : State) : (timerPolicy s).stack = s.stack := rfl
@[simp] theorem timerPolicy_dt (s : State) : (timerPolicy s).dt = countDown (timerDue s) s.dt := rfl
@[simp] theorem timerPolicy_st (s : State) : (timerPolicy s).st = countDown (timerDue s) s.st := rfl
@[simp] theorem timerPolicy_dtacc (s : State) : (timerPolicy s).dtacc = if timerDue s then timerPeriodNs else s.dtacc - s.periodNs := rfl
@[simp] theorem timerPolicy_fb (s : State) : (timerPolicy s).fb = s.fb := rfl
@[simp] theorem timerPolicy_fault (s : State) : (timerPolicy s).fault = s.fault := rfl
@[simp] theorem timerPolicy_periodNs (s : State) : (timerPolicy s).periodNs = s.periodNs := rfl
@[simp] theorem timerPolicy_displayChanged (s : State) : (timerPolicy s).displayChanged = s.displayChanged := rfl
@[simp] theorem timerPolicy_unknownOpcode (s : State) : (timerPolicy s).unknownOpcode = s.unknownOpcode := rfl
@[simp] theorem timerPolicy_inputs (s : State) : (timerPolicy s).inputs = s.inputs := rfl
@[simp] theorem timerPolicy_ticks (s : State) : (timerPolicy s).ticks = s.ticks := rfl
@[simp] theorem timerPolicy_phase (s : State) : (timerPolicy s).phase = s.phase := rfl
@[simp] theorem readV_timerPolicy (s : State) (q : Reg) : readV (timerPolicy s) q = readV s q := rfl

/-! ### advancePc -/

@[simp] theorem advancePc_mem (s : State) : (advancePc s).mem = s.mem := rfl
@[simp] theorem advancePc_v (s : State) : (advancePc s).v = s.v := rfl
@[simp] theorem advancePc_pc (s : State) : (advancePc s).pc = BitVec.ofNat 16 ((s.pc.toNat + 2) % memSize) := rfl
@[simp] theorem advancePc_i (s : State) : (advancePc s).i = s.i := rfl
@[simp] theorem advancePc_sp (s : State) : (advancePc s).sp = s.sp := rfl
@[simp] theorem advancePc_stack (s : State) : (advancePc s).stack = s.stack := rfl
@[simp] theorem advancePc_dt (s : State) : (advancePc s).dt = s.dt := rfl
@[simp] theorem advancePc_st (s : State) : (advancePc s).st = s.st := rfl
@[simp] theorem advancePc_dtacc (s : State) : (advancePc s).dtacc = s.dtacc := rfl
@[simp] theorem advancePc_fb (s : State) : (advancePc s).fb = s.fb := rfl
@[simp] theorem advancePc_fault (s : State) : (advancePc s).fault = s.fault := rfl
@[simp] theorem advancePc_periodNs (s : State) : (advancePc s).periodNs = s.periodNs := rfl
@[simp] theorem advancePc_displayChanged (s : State) : (advancePc s).displayChanged = s.displayChanged := rfl
@[simp] theorem advancePc_unknownOpcode (s : State) : (advancePc s).unknownOpcode = s.unknownOpcode := rfl
@[simp] theorem advancePc_inputs (s : State) : (advancePc s).inputs = s.inputs := rfl
@[simp] theorem advancePc_ticks (s : State) : (advancePc s).ticks = s.ticks := rfl
@[simp] theorem advancePc_phase (s : State) : (advancePc s).phase = s.phase := rfl
@[simp] theorem readV_advancePc (s : State) (q : Reg) : readV (advancePc s) q = readV s q := rfl

/-! ### clearOutputs -/

@[simp] theorem clearOutputs_mem (s : State) : (clearOutputs s).mem = s.mem := rfl
@[simp] theorem clearOutputs_v (s : State) : (clearOutputs s).v = s.v := rfl
@[simp] theorem clearOutputs_pc (s : State) : (clearOutputs s).pc = s.pc := rfl
@[simp] theorem clearOutputs_i (s : State) : (clearOutputs s).i = s.i := rfl
@[simp] theorem clearOutputs_sp (s : State) : (clearOutputs s).sp = s.sp := rfl
@[simp] theorem clearOutputs_stack (s : State) : (clearOutputs s).stack = s.stack := rfl
@[simp] theorem clearOutputs_dt (s : State) : (clearOutputs s).dt = s.dt := rfl
@[simp] theorem clearOutputs_st (s : State) : (clearOutputs s).st = s.st := rfl
@[simp] theorem clearOutputs_dtacc (s : State) : (clearOutputs s).dtacc = s.dtacc := rfl
@[simp] theorem clearOutputs_fb (s : State) : (clearOutputs s).fb = s.fb := rfl
@[simp] theorem clearOutputs_fault (s : State) : (clearOutputs s).fault = s.fault := rfl
@[simp] theorem clearOutputs_periodNs (s : State) : (clearOutputs s).periodNs = s.periodNs := rfl
@[simp] theorem clearOutputs_displayChanged (s : State) : (clearOutputs s).displayChanged = false := rfl
@[simp] theorem clearOutputs_unknownOpcode (s : State) : (clearOutputs s).unknownOpcode = false := rfl
@[simp] theorem clearOutputs_inputs (s : State) : (clearOutputs s).inputs = s.inputs := rfl
@[simp] theorem clearOutputs_ticks (s : State) : (clearOutputs s).ticks = s.ticks := rfl
@[simp] theorem clearOutputs_phase (s : State) : (clearOutputs s).phase = s.phase := rfl
@[simp] theorem readV_clearOutputs (s : State) (q : Reg) : readV (clearOutputs s) q = readV s q := rfl

/-! ### closeStep -/

@[simp] theorem closeStep_mem (s : State) : (closeStep s).mem = s.mem := rfl
@[simp] theorem closeStep_v (s : State) : (closeStep s).v = s.v := rfl
@[simp] theorem closeStep_pc (s : State) : (closeStep s).pc = s.pc := rfl
@[simp] theorem closeStep_i (s : State) : (closeStep s).i = s.i := rfl
@[simp] theorem closeStep_sp (s : State) : (closeStep s).sp = s.sp := rfl
@[simp] theorem closeStep_stack (s : State) : (closeStep s).stack = s.stack := rfl
@[simp] theorem closeStep_dt (s : State) : (closeStep s).dt = s.dt := rfl
@[simp] theorem closeStep_st (s : State) : (closeStep s).st = s.st := rfl
@[simp] theorem closeStep_dtacc (s : State) : (closeStep s).dtacc = s.dtacc := rfl
@[simp] theorem closeStep_fb (s : State) : (closeStep s).fb = s.fb := rfl
@[simp] theorem closeStep_fault (s : State) : (closeStep s).fault = s.fault := rfl
@[simp] theorem closeStep_periodNs (s : State) : (closeStep s).periodNs = s.periodNs := rfl
@[simp] theorem closeStep_displayChanged (s : State) : (closeStep s).displayChanged = s.displayChanged := rfl
@[simp] theorem closeStep_unknownOpcode (s : State) : (closeStep s).unknownOpcode = s.unknownOpcode := rfl
@[simp] theorem closeStep_inputs (s : State) : (closeStep s).inputs = s.inputs.tail := rfl
@[simp] theorem closeStep_ticks (s : State) : (closeStep s).ticks = s.ticks + 1 := rfl
@[simp] theorem closeStep_phase (s : State) : (closeStep s).phase = .running := rfl
@[simp] theorem readV_closeStep (s : State) (q : Reg) : readV (closeStep s) q = readV s q := rfl

/-! ### enterFault -/

@[simp] theorem enterFault_mem (s : State) (f : Fault) : (enterFault s f).mem = s.mem := rfl
@[simp] theorem enterFault_v (s : State) (f : Fault) : (enterFault s f).v = s.v := rfl
@[simp] theorem enterFault_pc (s : State) (f : Fault) : (enterFault s f).pc = s.pc := rfl
@[simp] theorem enterFault_i (s : State) (f : Fault) : (enterFault s f).i = s.i := rfl
@[simp] theorem enterFault_sp (s : State) (f : Fault) : (enterFault s f).sp = s.sp := rfl
@[simp] theorem enterFault_stack (s : State) (f : Fault) : (enterFault s f).stack = s.stack := rfl
@[simp] theorem enterFault_dt (s : State) (f : Fault) : (enterFault s f).dt = s.dt := rfl
@[simp] theorem enterFault_st (s : State) (f : Fault) : (enterFault s f).st = s.st := rfl
@[simp] theorem enterFault_dtacc (s : State) (f : Fault) : (enterFault s f).dtacc = s.dtacc := rfl
@[simp] theorem enterFault_fb (s : State) (f : Fault) : (enterFault s f).fb = s.fb := rfl
@[simp] theorem enterFault_fault (s : State) (f : Fault) : (enterFault s f).fault = some f := rfl
@[simp] theorem enterFault_periodNs (s : State) (f : Fault) : (enterFault s f).periodNs = s.periodNs := rfl
@[simp] theorem enterFault_displayChanged (s : State) (f : Fault) : (enterFault s f).displayChanged = s.displayChanged := rfl
@[simp] theorem enterFault_unknownOpcode (s : State) (f : Fault) : (enterFault s f).unknownOpcode = s.unknownOpcode := rfl
@[simp] theorem enterFault_inputs (s : State) (f : Fault) : (enterFault s f).inputs = s.inputs := rfl
@[simp] theorem enterFault_ticks (s : State) (f : Fault) : (enterFault s f).ticks = s.ticks := rfl
@[simp] theorem enterFault_phase (s : State) (f : Fault) : (enterFault s f).phase = s.phase := rfl
@[simp] theorem readV_enterFault (s : State) (f : Fault) (q : Reg) : readV (enterFault s f) q = readV s q := rfl

/-! ### What the executing step sees -/

/-- The inputs depend on nothing but the host's calls and the step's number. -/
theorem stepInput_congr (s t : State) (hi : t.inputs = s.inputs) (ht : t.ticks = s.ticks) :
    stepInput t = stepInput s := by
  unfold stepInput
  rw [hi, ht]

@[simp] theorem stepInput_advancePc (s : State) : stepInput (advancePc s) = stepInput s := rfl
@[simp] theorem stepInput_timerPolicy (s : State) : stepInput (timerPolicy s) = stepInput s := rfl
@[simp] theorem stepInput_clearOutputs (s : State) : stepInput (clearOutputs s) = stepInput s := rfl

/-- During the execute phase `fetchPC` is the address the step fetched from: every fetch that succeeds has it at
most 0xFFE (R102). -/
theorem fetchPC_advancePc (s : State) (h : s.pc.toNat + 1 < memSize) : fetchPC (advancePc s) = s.pc := by
  simp only [memSize] at h
  apply BitVec.eq_of_toNat_eq
  have hm : ∀ n : Nat, n &&& 4095 = n % 4096 := fun n => Nat.and_two_pow_sub_one_eq_mod n 12
  simp only [fetchPC, advancePc, memSize, BitVec.toNat_and, BitVec.toNat_sub, BitVec.toNat_ofNat]
  rw [show BitVec.toNat (0x0FFF : Word) = 4095 from rfl, show BitVec.toNat (2 : Word) = 2 from rfl, hm]
  omega

/-- The fetch address as a number: PC - 2 modulo 4096 (R24, R102). -/
theorem fetchPC_toNat (s : State) : (fetchPC s).toNat = (s.pc.toNat + 4094) % 4096 := by
  have hm : ∀ n : Nat, n &&& 4095 = n % 4096 := fun n => Nat.and_two_pow_sub_one_eq_mod n 12
  simp only [fetchPC, BitVec.toNat_and, BitVec.toNat_sub]
  rw [show BitVec.toNat (0x0FFF : Word) = 4095 from rfl, show BitVec.toNat (2 : Word) = 2 from rfl, hm]
  omega

/-- A timer after the policy, as a number (R240). -/
theorem countDown_toNat (due : Bool) (b : Byte) :
    (countDown due b).toNat = if due then b.toNat - 1 else b.toNat := by
  unfold countDown
  by_cases h : b = 0
  · subst h
    cases due <;> rfl
  · have h0 : b.toNat ≠ 0 := fun e => h (BitVec.eq_of_toNat_eq (by simpa using e))
    have hlt := b.isLt
    rw [if_neg h]
    cases due
    · rfl
    · rw [if_pos rfl, if_pos rfl, BitVec.toNat_sub, show (1 : Byte).toNat = 1 from rfl]
      omega

end Sys2Proof.Machine
end

