-- ==== Sys2Proof/Laws/Memory.lean ====
section
/-! SUPPORT. Laws/Memory.lean: a read after a write, the canonical form, and one specification of each block access. -/

namespace Sys2Proof.Machine

/-! ## Reading after a write -/

theorem Memory.read_insert (m : Memory) (a x : Nat) (b : Byte) :
    (Memory.insert a b m).read x = if x = a then b else m.read x := by
  induction m with
  | nil => simp [Memory.insert, Memory.read, eq_comm]
  | cons c m ih =>
    obtain ⟨k, c⟩ := c
    simp only [Memory.insert]
    split
    · by_cases h : x = a
      · simp [Memory.read, h]
      · simp [Memory.read, h, Ne.symm h]
    · split
      · subst_vars
        by_cases h : x = k
        · simp [Memory.read, h]
        · simp [Memory.read, h, Ne.symm h]
      · by_cases h : x = k
        · subst h; simp [Memory.read]; omega
        · simp [Memory.read, Ne.symm h, ih]

theorem Memory.wfFrom_mono (m : Memory) (lo lo' : Nat) (h : lo' ≤ lo) (hw : m.wfFrom lo = true) :
    m.wfFrom lo' = true := by
  cases m with
  | nil => rfl
  | cons c m =>
    simp only [Memory.wfFrom, Bool.and_eq_true, decide_eq_true_eq] at hw ⊢
    exact ⟨⟨⟨by omega, hw.1.1.2⟩, hw.1.2⟩, hw.2⟩

/-- An address below the first listed one reads as an unlisted address. -/
theorem Memory.read_below (m : Memory) (lo x : Nat) (hx : x < lo) (hw : m.wfFrom lo = true) :
    m.read x = Memory.unlisted x := by
  induction m generalizing lo with
  | nil => rfl
  | cons c m ih =>
    obtain ⟨k, c⟩ := c
    simp only [Memory.wfFrom, Bool.and_eq_true, decide_eq_true_eq] at hw
    have hk : ¬ k = x := by omega
    simp only [Memory.read, hk, if_false]
    exact ih (k + 1) (by omega) hw.2

theorem Memory.read_erase (m : Memory) (lo a x : Nat) (hw : m.wfFrom lo = true) :
    (Memory.erase a m).read x = if x = a then Memory.unlisted a else m.read x := by
  induction m generalizing lo with
  | nil => by_cases h : x = a <;> simp [Memory.erase, Memory.read, h]
  | cons c m ih =>
    obtain ⟨k, c⟩ := c
    simp only [Memory.wfFrom, Bool.and_eq_true, decide_eq_true_eq] at hw
    simp only [Memory.erase]
    by_cases hak : a = k
    · subst hak
      simp only [if_true]
      by_cases h : x = a
      · subst h
        simp [Memory.read_below m (x + 1) x (by omega) hw.2]
      · simp [Memory.read, h, Ne.symm h]
    · simp only [hak, if_false, Memory.read]
      by_cases h : k = x
      · have h' : ¬ x = a := by omega
        simp [h, h']
      · simp only [h, if_false]
        exact ih (k + 1) hw.2

/-- A read after a write: the written byte at its address, every other byte as before (R60). -/
theorem Memory.read_write (m : Memory) (a x : Nat) (b : Byte) (hw : m.wf = true) :
    (m.write a b).read x = if x = a then b else m.read x := by
  unfold Memory.write
  split
  · rename_i h
    rw [Memory.read_erase m 0 a x hw, h]
  · exact Memory.read_insert m a x b

/-! ## The canonical form -/

theorem Memory.wfFrom_insert (m : Memory) (lo a : Nat) (b : Byte) (hlo : lo ≤ a) (ha : a < memSize)
    (hb : b ≠ Memory.unlisted a) (hw : m.wfFrom lo = true) : (Memory.insert a b m).wfFrom lo = true := by
  induction m generalizing lo with
  | nil => simp [Memory.insert, Memory.wfFrom, hlo, ha, hb]
  | cons c m ih =>
    obtain ⟨k, c⟩ := c
    simp only [Memory.wfFrom, Bool.and_eq_true, decide_eq_true_eq] at hw
    simp only [Memory.insert]
    split
    · simp only [Memory.wfFrom, Bool.and_eq_true, decide_eq_true_eq, bne_iff_ne]
      refine ⟨⟨⟨hlo, ha⟩, hb⟩, ⟨⟨by omega, hw.1.1.2⟩, by simpa using hw.1.2⟩, hw.2⟩
    · split
      · subst_vars
        simp only [Memory.wfFrom, Bool.and_eq_true, decide_eq_true_eq, bne_iff_ne]
        exact ⟨⟨⟨hlo, ha⟩, hb⟩, hw.2⟩
      · simp only [Memory.wfFrom, Bool.and_eq_true, decide_eq_true_eq]
        exact ⟨hw.1, ih (k + 1) (by omega) hw.2⟩

theorem Memory.wfFrom_erase (m : Memory) (lo a : Nat) (hw : m.wfFrom lo = true) :
    (Memory.erase a m).wfFrom lo = true := by
  induction m generalizing lo with
  | nil => rfl
  | cons c m ih =>
    obtain ⟨k, c⟩ := c
    simp only [Memory.wfFrom, Bool.and_eq_true, decide_eq_true_eq] at hw
    simp only [Memory.erase]
    split
    · exact Memory.wfFrom_mono m (k + 1) lo (by omega) hw.2
    · simp only [Memory.wfFrom, Bool.and_eq_true, decide_eq_true_eq]
      exact ⟨hw.1, ih (k + 1) hw.2⟩

/-- A write to an address of memory keeps the canonical form. -/
theorem Memory.wf_write (m : Memory) (a : Nat) (b : Byte) (ha : a < memSize) (hw : m.wf = true) :
    (m.write a b).wf = true := by
  unfold Memory.write
  split
  · exact Memory.wfFrom_erase m 0 a hw
  · rename_i h
    exact Memory.wfFrom_insert m 0 a b (Nat.zero_le a) ha h hw

/-! ## Memory from a function -/

theorem Memory.ofBytes_from (f : Nat → Byte) (n k : Nat) (hk : k + n ≤ memSize) :
    Memory.wfFrom k ((List.range' k n).filterMap fun a => if f a = Memory.unlisted a then none else some (a, f a)) = true ∧
      ∀ a, Memory.read
          ((List.range' k n).filterMap fun a => if f a = Memory.unlisted a then none else some (a, f a)) a =
        if k ≤ a ∧ a < k + n then f a else Memory.unlisted a := by
  induction n generalizing k with
  | zero =>
    refine ⟨rfl, fun a => ?_⟩
    rw [if_neg (by omega)]
    rfl
  | succ n ih =>
    obtain ⟨h1, h2⟩ := ih (k + 1) (by omega)
    rw [List.range'_succ, List.filterMap_cons]
    by_cases e : f k = Memory.unlisted k
    · simp only [e, if_true]
      refine ⟨Memory.wfFrom_mono _ (k + 1) k (by omega) h1, fun a => ?_⟩
      rw [h2]
      by_cases hak : a = k
      · subst hak
        rw [if_neg (by omega), if_pos (by omega), e]
      · have : (k + 1 ≤ a ∧ a < k + 1 + n) ↔ (k ≤ a ∧ a < k + (n + 1)) := by omega
        simp only [this]
    · simp only [e, if_false]
      refine ⟨?_, fun a => ?_⟩
      · simp only [Memory.wfFrom, h1, Bool.and_true, Bool.and_eq_true, decide_eq_true_eq, bne_iff_ne]
        exact ⟨⟨Nat.le_refl k, by omega⟩, e⟩
      · simp only [Memory.read]
        rw [h2]
        by_cases hak : k = a
        · subst hak
          rw [if_pos rfl, if_pos (by omega)]
        · have : (k + 1 ≤ a ∧ a < k + 1 + n) ↔ (k ≤ a ∧ a < k + (n + 1)) := by omega
          simp only [hak, this, if_false]

/-- The memory of a function is canonical, and its byte at every address of memory is the function's (R260). -/
theorem Memory.ofBytes_spec (f : Nat → Byte) :
    (Memory.ofBytes f).wf = true ∧ ∀ a, a < memSize → (Memory.ofBytes f).read a = f a := by
  have h := Memory.ofBytes_from f memSize 0 (by omega)
  unfold Memory.ofBytes
  rw [List.range_eq_range']
  refine ⟨h.1, fun a ha => ?_⟩
  rw [h.2, if_pos (by omega)]

/-- A function that agrees with what unlisted addresses read as gives the memory that lists nothing. -/
theorem Memory.ofBytes_unlisted (f : Nat → Byte) (h : ∀ a, f a = Memory.unlisted a) : Memory.ofBytes f = [] := by
  unfold Memory.ofBytes
  rw [List.filterMap_eq_nil_iff]
  intro a _
  rw [if_pos (h a)]

/-! ## Block accesses -/

/-- All a block read can do: the bytes where every address is in memory, else the first address that is not (R51,
R52, R233). -/
theorem readBlock_eq (m : Memory) (a n : Nat) :
    readBlock m a n =
      if n = 0 ∨ a + n ≤ memSize then .ok ((List.range n).map fun k => m.read (a + k))
      else .error (.memOutOfRange (max a memSize)) := by
  induction n generalizing a with
  | zero => simp [readBlock]
  | succ n ih =>
    simp only [readBlock, memRead, ih]
    by_cases h : a < memSize
    · simp only [h, if_true]
      by_cases h2 : n = 0 ∨ a + 1 + n ≤ memSize
      · have h3 : n + 1 = 0 ∨ a + (n + 1) ≤ memSize := by omega
        simp only [h2, h3, if_true, List.range_succ_eq_map, List.map_cons, List.map_map]
        simp [Function.comp_def, Nat.add_assoc, Nat.add_comm 1]
      · have h3 : ¬ (n + 1 = 0 ∨ a + (n + 1) ≤ memSize) := by omega
        have h4 : max (a + 1) memSize = max a memSize := by omega
        simp only [h2, h3, if_false, h4]
    · have h3 : ¬ (n + 1 = 0 ∨ a + (n + 1) ≤ memSize) := by omega
      have h4 : max a memSize = a := by omega
      simp only [h, h3, if_false, h4]

/-- A block write that answers a memory: every address was in memory, the block reads back, every other byte is as
before, and the canonical form is kept (R51, R52). -/
theorem writeBlock_ok (bs : List Byte) (m m' : Memory) (a : Nat) (hw : m.wf = true)
    (h : writeBlock m a bs = .ok m') :
    (bs = [] ∨ a + bs.length ≤ memSize) ∧ m'.wf = true ∧
      ∀ x, m'.read x = if a ≤ x then (bs[x - a]?).getD (m.read x) else m.read x := by
  induction bs generalizing m a with
  | nil => simp only [writeBlock, Except.ok.injEq] at h; subst h; simp [hw]
  | cons b bs ih =>
    simp only [writeBlock, memWrite] at h
    by_cases ha : a < memSize
    · simp only [ha, if_true] at h
      obtain ⟨h1, h2, h3⟩ := ih (m.write a b) (a + 1) (Memory.wf_write m a b ha hw) h
      refine ⟨Or.inr ?_, h2, fun x => ?_⟩
      · rcases h1 with rfl | h1 <;> simp <;> omega
      · rw [h3 x, Memory.read_write m a x b hw]
        by_cases hx : a + 1 ≤ x
        · have e1 : a ≤ x := by omega
          have e2 : x - a = (x - (a + 1)) + 1 := by omega
          have e3 : ¬ x = a := by omega
          simp [hx, e1, e2, e3]
        · by_cases e : x = a
          · subst e; simp
          · have e1 : ¬ a ≤ x := by omega
            simp [hx, e, e1]
    · simp [ha] at h

/-- When a block write succeeds, and with which fault it does not (R52, R233). -/
theorem writeBlock_cases (bs : List Byte) (m : Memory) (a : Nat) :
    if bs = [] ∨ a + bs.length ≤ memSize then ∃ m', writeBlock m a bs = .ok m'
    else writeBlock m a bs = .error (.memOutOfRange (max a memSize)) := by
  induction bs generalizing m a with
  | nil => simp [writeBlock]
  | cons b bs ih =>
    simp only [writeBlock, memWrite]
    by_cases ha : a < memSize
    · simp only [ha, if_true]
      have := ih (m.write a b) (a + 1)
      by_cases h2 : bs = [] ∨ a + 1 + bs.length ≤ memSize
      · have h3 : b :: bs = [] ∨ a + (b :: bs).length ≤ memSize := by
          rcases h2 with rfl | h2 <;> simp <;> omega
        simp only [h2, if_true] at this
        simp only [h3, if_true, this]
      · have h3 : ¬ (b :: bs = [] ∨ a + (b :: bs).length ≤ memSize) := by
          simp only [not_or, List.length_cons] at h2 ⊢
          exact ⟨by simp, by omega⟩
        have h4 : max (a + 1) memSize = max a memSize := by omega
        simp only [h2, if_false] at this
        simp only [h3, if_false, this, h4]
    · have h3 : ¬ (b :: bs = [] ∨ a + (b :: bs).length ≤ memSize) := by simp; omega
      have h4 : max a memSize = a := by omega
      simp only [ha, h3, if_false, h4]

/-! ## Fetch -/

/-- All a fetch can do (R101). -/
theorem fetchWord_eq (m : Memory) (a : Nat) :
    fetchWord m a =
      if a + 1 < memSize then .ok (joinBytes (m.read a) (m.read (a + 1)))
      else .error (.memOutOfRange (max a memSize)) := by
  unfold fetchWord memRead
  by_cases h : a + 1 < memSize
  · have h2 : a < memSize := by omega
    simp only [h, h2, if_true]
  · by_cases h2 : a < memSize
    · have h4 : max a memSize = a + 1 := by omega
      simp only [h, h2, if_true, if_false, h4]
    · have h4 : max a memSize = a := by omega
      simp only [h, h2, if_false, h4]

/-- A fetch that succeeds is from an address of at most 0xFFE (R102). -/
theorem fetchWord_ok_lt (m : Memory) (a : Nat) (w : Word) (h : fetchWord m a = .ok w) : a + 1 < memSize := by
  rw [fetchWord_eq] at h
  by_contra hc
  simp [hc] at h

end Sys2Proof.Machine
end

