-- ==== Sys2Proof/Laws/Display.lean ====
section
/-! SUPPORT. Laws/Display.lean: one specification of each part of the sprite pipeline (R192): which pixels it changes, and
when a collision is seen. -/

namespace Sys2Proof.Machine

/-- Every pixel of the blank screen is off (R190). -/
theorem pixel_blankScreen (px py : Nat) : pixel blankScreen px py = false := by
  unfold pixel blankScreen
  by_cases h : py < 32
  · by_cases h2 : px < 64 <;> simp [h, h2]
  · simp [h]

/-- The pixel set, where it is on the screen, and no other. -/
theorem pixel_setPixel (fb : Screen) (px py qx qy : Nat) (b : Bool) :
    pixel (setPixel fb px py b) qx qy =
      if qx = px ∧ qy = py ∧ px < screenWidth ∧ py < screenHeight then b else pixel fb qx qy := by
  unfold pixel setPixel
  by_cases hpy : py < 32
  · by_cases hy : qy = py
    · subst hy
      by_cases hpx : px < 64
      · by_cases hx : qx = px
        · subst hx; simp [hpy, hpx]
        · have hx' : ¬ px = qx := fun e => hx e.symm
          simp [hpy, hx, hx']
      · have h' : ¬ (qx = px ∧ px < 64) := fun e => hpx e.2
        by_cases hx : px = qx
        · subst hx; simp [hpy, hpx]
        · simp [hpy, hpx, hx]
    · have hy' : ¬ py = qy := fun e => hy e.symm
      simp [hpy, hy, hy']
  · simp [hpy]

/-- A pixel outside the screen is off. -/
theorem pixel_outside (fb : Screen) (px py : Nat) (h : screenWidth ≤ px ∨ screenHeight ≤ py) :
    pixel fb px py = false := by
  unfold pixel
  by_cases hpy : py < 32
  · have hpx : ¬ px < 64 := by simp only [screenWidth, screenHeight] at h; omega
    simp [hpy, hpx]
  · simp [hpy]

/-- A plot inverts its pixel and no other. -/
theorem pixel_plot (px py qx qy : Nat) (k : Canvas) (hx : px < screenWidth) (hy : py < screenHeight) :
    pixel (plot px py k).fb qx qy = (pixel k.fb qx qy ^^ decide (qx = px ∧ qy = py)) := by
  simp only [plot, pixel_setPixel, hx, hy, and_true]
  by_cases h : qx = px ∧ qy = py
  · obtain ⟨rfl, rfl⟩ := h; simp
  · simp [h]

/-- Whether columns c, c + 1, ..., n of them, of a row at `py` put a bit 1 on (qx, qy). -/
def columnsCover (x0 py c n : Nat) (row : Byte) (qx qy : Nat) : Bool :=
  decide (qy = py ∧ x0 + c ≤ qx ∧ qx < x0 + c + n ∧ qx < screenWidth) && spriteBit row (qx - x0)

theorem columnsCover_none (x0 py c n : Nat) (row : Byte) (qx qy : Nat) (h : n = 0 ∨ screenWidth ≤ x0 + c) :
    columnsCover x0 py c n row qx qy = false := by
  have : ¬ (qy = py ∧ x0 + c ≤ qx ∧ qx < x0 + c + n ∧ qx < screenWidth) := by omega
  simp only [columnsCover, this, decide_false, Bool.false_and]

theorem columnsCover_succ (x0 py c n : Nat) (row : Byte) (qx qy : Nat) (hx : x0 + c < screenWidth) :
    columnsCover x0 py c (n + 1) row qx qy =
      ((spriteBit row c && decide (qx = x0 + c ∧ qy = py)) ^^ columnsCover x0 py (c + 1) n row qx qy) := by
  simp only [screenWidth] at hx
  unfold columnsCover
  by_cases h : qx = x0 + c
  · subst h
    have h1 : ¬ (x0 + (c + 1) ≤ x0 + c) := by omega
    have h2 : x0 + c < x0 + c + (n + 1) := by omega
    by_cases hy : qy = py <;> simp [h1, h2, hx, hy]
  · have h3 : (qy = py ∧ x0 + c ≤ qx ∧ qx < x0 + c + (n + 1) ∧ qx < screenWidth) ↔
        (qy = py ∧ x0 + (c + 1) ≤ qx ∧ qx < x0 + (c + 1) + n ∧ qx < screenWidth) := by omega
    simp only [h3, h, false_and, decide_false, Bool.and_false, Bool.false_xor]

/-- The pixels a sprite row changes: exactly those it covers are inverted. -/
theorem pixel_drawColumns (n : Nat) : ∀ (x0 py c : Nat) (row : Byte) (k : Canvas) (qx qy : Nat), py < screenHeight →
    pixel (drawColumns x0 py row (List.range' c n) k).fb qx qy =
      (pixel k.fb qx qy ^^ columnsCover x0 py c n row qx qy) := by
  induction n with
  | zero =>
    intro x0 py c row k qx qy _
    simp [drawColumns, columnsCover_none x0 py c 0 row qx qy (Or.inl rfl)]
  | succ n ih =>
    intro x0 py c row k qx qy hy
    simp only [List.range'_succ, drawColumns]
    by_cases hx : screenWidth ≤ x0 + c
    · simp [hx, columnsCover_none x0 py c (n + 1) row qx qy (Or.inr hx)]
    · have hx' : x0 + c < screenWidth := by omega
      simp only [hx, if_false]
      rw [ih x0 py (c + 1) row _ qx qy hy, columnsCover_succ x0 py c n row qx qy hx']
      cases hb : spriteBit row c
      · simp
      · simp [pixel_plot _ _ _ _ _ hx' hy]

/-- When a sprite row collides: where a bit 1 falls on a pixel that was on. -/
theorem hit_drawColumns (n : Nat) : ∀ (x0 py c : Nat) (row : Byte) (k : Canvas), py < screenHeight →
    ((drawColumns x0 py row (List.range' c n) k).hit = true ↔
      k.hit = true ∨ ∃ qx, columnsCover x0 py c n row qx py = true ∧ pixel k.fb qx py = true) := by
  induction n with
  | zero =>
    intro x0 py c row k _
    simp [drawColumns, columnsCover_none x0 py c 0 row _ py (Or.inl rfl)]
  | succ n ih =>
    intro x0 py c row k hy
    simp only [List.range'_succ, drawColumns]
    by_cases hx : screenWidth ≤ x0 + c
    · simp [hx, columnsCover_none x0 py c (n + 1) row _ py (Or.inr hx)]
    · have hx' : x0 + c < screenWidth := by omega
      have hfar : ∀ qx, columnsCover x0 py (c + 1) n row qx py = true → qx ≠ x0 + c := by
        intro qx h e
        simp only [columnsCover, Bool.and_eq_true, decide_eq_true_eq] at h
        omega
      simp only [hx, if_false]
      rw [ih x0 py (c + 1) row _ hy]
      cases hb : spriteBit row c
      · have hc : ∀ qx, columnsCover x0 py c (n + 1) row qx py = columnsCover x0 py (c + 1) n row qx py := by
          intro qx; simp [columnsCover_succ x0 py c n row qx py hx', hb]
        simp [hc]
      · have hc : ∀ qx, columnsCover x0 py c (n + 1) row qx py = true ↔
            (qx = x0 + c ∨ columnsCover x0 py (c + 1) n row qx py = true) := by
          intro qx
          rw [columnsCover_succ x0 py c n row qx py hx', hb]
          by_cases e : qx = x0 + c
          · have : columnsCover x0 py (c + 1) n row qx py = false := by
              cases h : columnsCover x0 py (c + 1) n row qx py
              · rfl
              · exact absurd e (hfar qx h)
            rw [this]; simp [e]
          · simp [e]
        simp only [if_true, hc]
        have hp : (plot (x0 + c) py k).hit = (k.hit || pixel k.fb (x0 + c) py) := rfl
        rw [hp]
        constructor
        · rintro (h | ⟨qx, h1, h2⟩)
          · rcases Bool.or_eq_true _ _ ▸ h with h | h
            · exact Or.inl h
            · exact Or.inr ⟨x0 + c, Or.inl rfl, h⟩
          · refine Or.inr ⟨qx, Or.inr h1, ?_⟩
            rw [pixel_plot _ _ _ _ _ hx' hy] at h2
            simpa [hfar qx h1] using h2
        · rintro (h | ⟨qx, rfl | h1, h2⟩)
          · exact Or.inl (by simp [h])
          · exact Or.inl (by simp [h2])
          · refine Or.inr ⟨qx, h1, ?_⟩
            rw [pixel_plot _ _ _ _ _ hx' hy]
            simpa [hfar qx h1] using h2

/-- The sprite `rows` with its top left at (x0, y0) has a bit 1 on the screen pixel (px, py): row `py - y0`, column
`px - x0`, bit 7 leftmost, nothing wrapped (R191, R194). -/
def spriteCovers (rows : List Byte) (x0 y0 px py : Nat) : Bool :=
  decide (x0 ≤ px ∧ px < x0 + 8 ∧ px < screenWidth ∧ y0 ≤ py ∧ py < screenHeight) &&
    ((rows[py - y0]?.map fun row => spriteBit row (px - x0)).getD false)

theorem spriteCovers_nil (x0 y0 px py : Nat) : spriteCovers [] x0 y0 px py = false := by
  simp [spriteCovers]

/-- A sprite's first row, and the rest from the next screen row on. -/
theorem spriteCovers_cons (row : Byte) (rows : List Byte) (x0 y0 px py : Nat) (hy : y0 < screenHeight) :
    spriteCovers (row :: rows) x0 y0 px py =
      (columnsCover x0 y0 0 8 row px py ^^ spriteCovers rows x0 (y0 + 1) px py) := by
  unfold spriteCovers columnsCover
  by_cases h : py = y0
  · subst h
    have h1 : (x0 ≤ px ∧ px < x0 + 8 ∧ px < screenWidth ∧ py ≤ py ∧ py < screenHeight) ↔
        (py = py ∧ x0 + 0 ≤ px ∧ px < x0 + 0 + 8 ∧ px < screenWidth) := by omega
    have h2 : ¬ (x0 ≤ px ∧ px < x0 + 8 ∧ px < screenWidth ∧ py + 1 ≤ py ∧ py < screenHeight) := by omega
    simp only [h1, h2, decide_false, Bool.false_and, Bool.xor_false, Nat.sub_self, List.getElem?_cons_zero,
      Option.map_some, Option.getD_some]
  · have h1 : ¬ (py = y0 ∧ x0 + 0 ≤ px ∧ px < x0 + 0 + 8 ∧ px < screenWidth) := by omega
    by_cases h2 : y0 ≤ py
    · have h3 : py - y0 = (py - (y0 + 1)) + 1 := by omega
      have h4 : (x0 ≤ px ∧ px < x0 + 8 ∧ px < screenWidth ∧ y0 ≤ py ∧ py < screenHeight) ↔
        (x0 ≤ px ∧ px < x0 + 8 ∧ px < screenWidth ∧ y0 + 1 ≤ py ∧ py < screenHeight) := by omega
      simp only [h1, h3, h4, decide_false, Bool.false_and, Bool.false_xor, List.getElem?_cons_succ]
    · have h4 : ¬ (x0 ≤ px ∧ px < x0 + 8 ∧ px < screenWidth ∧ y0 ≤ py ∧ py < screenHeight) := by omega
      have h5 : ¬ (x0 ≤ px ∧ px < x0 + 8 ∧ px < screenWidth ∧ y0 + 1 ≤ py ∧ py < screenHeight) := by omega
      simp only [h1, h4, h5, decide_false, Bool.false_and, Bool.false_xor]

theorem spriteCovers_below (rows : List Byte) (x0 y0 px py : Nat) (hy : screenHeight ≤ y0) :
    spriteCovers rows x0 y0 px py = false := by
  have : ¬ (x0 ≤ px ∧ px < x0 + 8 ∧ px < screenWidth ∧ y0 ≤ py ∧ py < screenHeight) := by omega
  simp only [spriteCovers, this, decide_false, Bool.false_and]

/-- What a sprite read from memory covers, with the bit of its row written out: bit 7 leftmost (R191; D9, log 12). -/
theorem spriteCovers_block (m : Memory) (a n x0 y0 px py : Nat) :
    spriteCovers ((List.range n).map fun r => m.read (a + r)) x0 y0 px py = true ↔
      x0 ≤ px ∧ px < x0 + 8 ∧ px < screenWidth ∧ y0 ≤ py ∧ py < y0 + n ∧ py < screenHeight ∧
        (m.read (a + (py - y0))).getLsbD (7 - (px - x0)) = true := by
  unfold spriteCovers spriteBit
  by_cases h : py - y0 < n
  · simp only [List.getElem?_map, List.getElem?_range h, Option.map_some, Option.getD_some, Bool.and_eq_true,
      decide_eq_true_eq]
    constructor
    · rintro ⟨⟨h1, h2, h3, h4, h5⟩, h6⟩
      exact ⟨h1, h2, h3, h4, by omega, h5, h6⟩
    · rintro ⟨h1, h2, h3, h4, -, h5, h6⟩
      exact ⟨⟨h1, h2, h3, h4, h5⟩, h6⟩
  · rw [List.getElem?_eq_none (by simpa using h)]
    constructor
    · simp
    · rintro ⟨-, -, -, h4, h5, -⟩
      omega

/-- All a sprite does to the framebuffer: exactly the pixels it covers are inverted (R192, R194). -/
theorem pixel_drawRows (rows : List Byte) (x0 y0 : Nat) (k : Canvas) (qx qy : Nat) :
    pixel (drawRows x0 y0 rows k).fb qx qy = (pixel k.fb qx qy ^^ spriteCovers rows x0 y0 qx qy) := by
  induction rows generalizing y0 k with
  | nil => simp [drawRows, spriteCovers_nil]
  | cons row rows ih =>
    simp only [drawRows]
    by_cases hy : screenHeight ≤ y0
    · simp [hy, spriteCovers_below _ _ _ _ _ hy]
    · have hy' : y0 < screenHeight := by omega
      simp only [hy, if_false]
      rw [ih, List.range_eq_range', pixel_drawColumns 8 x0 y0 0 row k qx qy hy', spriteCovers_cons _ _ _ _ _ _ hy',
        Bool.xor_assoc]

/-- When a sprite collides: where it covers a pixel that was on before the drawing (R192). -/
theorem hit_drawRows (rows : List Byte) (x0 y0 : Nat) (k : Canvas) :
    (drawRows x0 y0 rows k).hit = true ↔
      k.hit = true ∨ ∃ qx qy, spriteCovers rows x0 y0 qx qy = true ∧ pixel k.fb qx qy = true := by
  induction rows generalizing y0 k with
  | nil => simp [drawRows, spriteCovers_nil]
  | cons row rows ih =>
    simp only [drawRows]
    by_cases hy : screenHeight ≤ y0
    · simp [hy, spriteCovers_below _ _ _ _ _ hy]
    · have hy' : y0 < screenHeight := by omega
      have hrow : ∀ qx qy, columnsCover x0 y0 0 8 row qx qy = true → qy = y0 := by
        intro qx qy h
        simp only [columnsCover, Bool.and_eq_true, decide_eq_true_eq] at h
        exact h.1.1
      have hrest : ∀ qx qy, spriteCovers rows x0 (y0 + 1) qx qy = true → qy ≠ y0 := by
        intro qx qy h
        simp only [spriteCovers, Bool.and_eq_true, decide_eq_true_eq] at h
        omega
      have hboth : ∀ qx qy, spriteCovers (row :: rows) x0 y0 qx qy = true ↔
          (columnsCover x0 y0 0 8 row qx qy = true ∨ spriteCovers rows x0 (y0 + 1) qx qy = true) := by
        intro qx qy
        rw [spriteCovers_cons _ _ _ _ _ _ hy']
        by_cases e : qy = y0
        · have : spriteCovers rows x0 (y0 + 1) qx qy = false := by
            cases h : spriteCovers rows x0 (y0 + 1) qx qy
            · rfl
            · exact absurd e (hrest qx qy h)
          simp [this]
        · have : columnsCover x0 y0 0 8 row qx qy = false := by
            cases h : columnsCover x0 y0 0 8 row qx qy
            · rfl
            · exact absurd (hrow qx qy h) e
          simp [this]
      simp only [hy, if_false]
      rw [ih, List.range_eq_range', hit_drawColumns 8 x0 y0 0 row k hy']
      constructor
      · rintro ((h | ⟨qx, h1, h2⟩) | ⟨qx, qy, h1, h2⟩)
        · exact Or.inl h
        · exact Or.inr ⟨qx, y0, (hboth qx y0).2 (Or.inl h1), h2⟩
        · refine Or.inr ⟨qx, qy, (hboth qx qy).2 (Or.inr h1), ?_⟩
          rw [pixel_drawColumns 8 x0 y0 0 row k qx qy hy'] at h2
          have : columnsCover x0 y0 0 8 row qx qy = false := by
            cases h : columnsCover x0 y0 0 8 row qx qy
            · rfl
            · exact absurd (hrow qx qy h) (hrest qx qy h1)
          simpa [this] using h2
      · rintro (h | ⟨qx, qy, h1, h2⟩)
        · exact Or.inl (Or.inl h)
        · rcases (hboth qx qy).1 h1 with h | h
          · have e := hrow qx qy h
            subst e
            exact Or.inl (Or.inr ⟨qx, h, h2⟩)
          · refine Or.inr ⟨qx, qy, h, ?_⟩
            rw [pixel_drawColumns 8 x0 y0 0 row k qx qy hy']
            have : columnsCover x0 y0 0 8 row qx qy = false := by
              cases h' : columnsCover x0 y0 0 8 row qx qy
              · rfl
              · exact absurd (hrow qx qy h') (hrest qx qy h)
            simpa [this] using h2

end Sys2Proof.Machine
end

