-- ==== Sys2Proof/Laws/Encoding.lean ====
section
/-! SUPPORT. Laws/Encoding.lean: the fields of a word in each format (R71, R72, R74), and the bytes of a word (R54). -/

namespace Sys2Proof

/-- A number in two parts, the upper one above `k` bits. -/
theorem append_toNat {m k : Nat} (a : BitVec m) (b : BitVec k) : (a ++ b).toNat = a.toNat * 2 ^ k + b.toNat := by
  rw [BitVec.toNat_append, ← Nat.shiftLeft_add_eq_or_of_lt b.isLt, Nat.shiftLeft_eq]

theorem nibble_toNat (r : Fin 16) : (nibble r).toNat = r.val := by
  have := r.isLt
  simp only [nibble, BitVec.toNat_ofNat]
  omega

theorem formatNNN_toNat (n0 : BitVec 4) (nnn : BitVec 12) :
    (formatNNN n0 nnn).toNat = n0.toNat * 4096 + nnn.toNat := append_toNat n0 nnn

theorem formatXKK_toNat (n0 : BitVec 4) (x : Reg) (kk : Byte) :
    (formatXKK n0 x kk).toNat = n0.toNat * 4096 + x.val * 256 + kk.toNat := by
  have h : (formatXKK n0 x kk).toNat = (n0 ++ nibble x).toNat * 256 + kk.toNat := append_toNat (n0 ++ nibble x) kk
  rw [h, append_toNat, nibble_toNat]
  omega

theorem formatXYN_toNat (n0 : BitVec 4) (x y : Reg) (n : BitVec 4) :
    (formatXYN n0 x y n).toNat = n0.toNat * 4096 + x.val * 256 + y.val * 16 + n.toNat := by
  have h : (formatXYN n0 x y n).toNat = (n0 ++ nibble x ++ nibble y).toNat * 16 + n.toNat :=
    append_toNat (n0 ++ nibble x ++ nibble y) n
  rw [h, append_toNat, append_toNat, nibble_toNat, nibble_toNat]
  omega

/-! ## Fields as numbers -/

theorem wordN0_toNat (w : Word) : (wordN0 w).toNat = w.toNat / 4096 := by
  have := w.isLt
  simp only [wordN0, BitVec.extractLsb'_toNat, Nat.shiftRight_eq_div_pow]
  omega

theorem wordX_val (w : Word) : (wordX w).val = w.toNat / 256 % 16 := by
  simp only [wordX, BitVec.extractLsb', Nat.shiftRight_eq_div_pow]
  rfl

theorem wordY_val (w : Word) : (wordY w).val = w.toNat / 16 % 16 := by
  simp only [wordY, BitVec.extractLsb', Nat.shiftRight_eq_div_pow]
  rfl

theorem wordN_val (w : Word) : (wordN w).val = w.toNat % 16 := by
  simp only [wordN, BitVec.extractLsb', Nat.shiftRight_zero]
  rfl

theorem wordKK_toNat (w : Word) : (wordKK w).toNat = w.toNat % 256 := by
  simp only [wordKK, BitVec.extractLsb'_toNat, Nat.shiftRight_zero]

theorem wordNNN_toNat (w : Word) : (wordNNN w).toNat = w.toNat % 4096 := by
  simp only [wordNNN, BitVec.extractLsb'_toNat, Nat.shiftRight_zero]

/-! ## Fields of the formats -/

@[simp] theorem wordN0_formatNNN (n0 : BitVec 4) (nnn : BitVec 12) : wordN0 (formatNNN n0 nnn) = n0 := by
  apply BitVec.eq_of_toNat_eq
  have := nnn.isLt
  rw [wordN0_toNat, formatNNN_toNat]; omega

@[simp] theorem wordNNN_formatNNN (n0 : BitVec 4) (nnn : BitVec 12) : wordNNN (formatNNN n0 nnn) = nnn := by
  apply BitVec.eq_of_toNat_eq
  have := nnn.isLt
  rw [wordNNN_toNat, formatNNN_toNat]; omega

@[simp] theorem wordN0_formatXKK (n0 : BitVec 4) (x : Reg) (kk : Byte) : wordN0 (formatXKK n0 x kk) = n0 := by
  apply BitVec.eq_of_toNat_eq
  have := kk.isLt
  have := x.isLt
  rw [wordN0_toNat, formatXKK_toNat]; omega

@[simp] theorem wordX_formatXKK (n0 : BitVec 4) (x : Reg) (kk : Byte) : wordX (formatXKK n0 x kk) = x := by
  apply Fin.ext
  have := kk.isLt
  have := x.isLt
  rw [wordX_val, formatXKK_toNat]; omega

@[simp] theorem wordKK_formatXKK (n0 : BitVec 4) (x : Reg) (kk : Byte) : wordKK (formatXKK n0 x kk) = kk := by
  apply BitVec.eq_of_toNat_eq
  have := kk.isLt
  rw [wordKK_toNat, formatXKK_toNat]; omega

@[simp] theorem wordN0_formatXYN (n0 : BitVec 4) (x y : Reg) (n : BitVec 4) : wordN0 (formatXYN n0 x y n) = n0 := by
  apply BitVec.eq_of_toNat_eq
  have := x.isLt
  have := y.isLt
  have := n.isLt
  rw [wordN0_toNat, formatXYN_toNat]; omega

@[simp] theorem wordX_formatXYN (n0 : BitVec 4) (x y : Reg) (n : BitVec 4) : wordX (formatXYN n0 x y n) = x := by
  apply Fin.ext
  have := x.isLt
  have := y.isLt
  have := n.isLt
  rw [wordX_val, formatXYN_toNat]; omega

@[simp] theorem wordY_formatXYN (n0 : BitVec 4) (x y : Reg) (n : BitVec 4) : wordY (formatXYN n0 x y n) = y := by
  apply Fin.ext
  have := y.isLt
  have := n.isLt
  rw [wordY_val, formatXYN_toNat]; omega

@[simp] theorem wordN_formatXYN (n0 : BitVec 4) (x y : Reg) (n : BitVec 4) : (wordN (formatXYN n0 x y n)).val = n.toNat := by
  have := n.isLt
  rw [wordN_val, formatXYN_toNat]; omega

/-- The row count of a sprite's word (R71, R74). -/
@[simp] theorem wordN_formatXYN_nibble (n0 : BitVec 4) (x y : Reg) (n : Fin 16) :
    wordN (formatXYN n0 x y (nibble n)) = n :=
  Fin.ext (by rw [wordN_formatXYN, nibble_toNat])

/-! ## Bytes -/

/-- The bytes of a word, joined, are the word (R54). -/
@[simp] theorem joinBytes_highByte_lowByte (w : Word) : joinBytes (highByte w) (lowByte w) = w := by
  apply BitVec.eq_of_toNat_eq
  have h : (joinBytes (highByte w) (lowByte w)).toNat = (highByte w).toNat * 256 + (lowByte w).toNat :=
    append_toNat (highByte w) (lowByte w)
  have := w.isLt
  rw [h]
  simp only [highByte, lowByte, BitVec.extractLsb'_toNat, Nat.shiftRight_eq_div_pow]
  omega

/-- Decoding two bytes decodes their word and leaves the rest (R54, R70). -/
theorem decode_cons_cons (hi lo : Byte) (rest : List Byte) :
    decode (hi :: lo :: rest) =
      match decodeWord (joinBytes hi lo) with
      | .ok i => .ok (i, rest)
      | .error e => .error e := rfl

end Sys2Proof
end

