-- ==== Sys2Proof/Laws/Registers.lean ====
section
/-! SUPPORT. Laws/Registers.lean: what the register operations read back, and the register blocks of Fx55 and Fx65. -/

namespace Sys2Proof.Machine

@[simp] theorem readV_writeV (s : State) (r q : Reg) (b : Byte) :
    readV (writeV s r b) q = if q = r then b else readV s q := by
  by_cases h : q = r
  · subst h; simp [readV, writeV]
  · have h' : ¬ r.val = q.val := fun e => h (Fin.ext e.symm)
    simp [readV, writeV, h, h']

/-- The result, then the flag: the flag is what VF holds (R22). -/
@[simp] theorem readV_writeWithFlag (s : State) (x q : Reg) (b : Byte) (c : Bool) :
    readV (writeWithFlag s x b c) q = if q = regF then flagByte c else if q = x then b else readV s q := by
  simp [writeWithFlag]

/-- A flagged write writes nothing but registers. -/
theorem writeWithFlag_eq (s : State) (x : Reg) (b : Byte) (c : Bool) :
    writeWithFlag s x b c = { s with v := (writeWithFlag s x b c).v } := rfl

/-- What a block of registers holds after `setRegsFrom` (R175). -/
theorem setRegsFrom_getElem (bs : List Byte) (v : Vector Byte 16) (k j : Nat) (hj : j < 16) :
    (setRegsFrom v k bs)[j] = if k ≤ j then (bs[j - k]?).getD v[j] else v[j] := by
  induction bs generalizing v k with
  | nil => simp [setRegsFrom]
  | cons b bs ih =>
    rw [setRegsFrom, ih]
    by_cases h1 : k + 1 ≤ j
    · have h2 : k ≤ j := by omega
      have h3 : j - k = (j - (k + 1)) + 1 := by omega
      have h4 : ¬ k = j := by omega
      simp [h1, h2, h3, h4]
    · by_cases h2 : k = j
      · subst h2
        simp
      · have h3 : ¬ k ≤ j := by omega
        simp [h1, h3, h2]

/-- `writeRegs` writes the registers the list reaches and no other (R175). -/
theorem readV_writeRegs (s : State) (bs : List Byte) (q : Reg) :
    readV (writeRegs s bs) q = (bs[q.val]?).getD (readV s q) := by
  simp [readV, writeRegs, setRegsFrom_getElem]

/-- `V[0]`..`V[x]` are x + 1 bytes (R174). -/
@[simp] theorem regsUpTo_length (s : State) (x : Reg) : (regsUpTo s x).length = x.val + 1 := by
  have := x.isLt
  simp only [regsUpTo, List.length_take, Vector.length_toList]
  omega

/-- The k-th byte of the block is `V[k]` (R174). -/
theorem regsUpTo_getElem? (s : State) (x q : Reg) (h : q.val ≤ x.val) :
    (regsUpTo s x)[q.val]? = some (readV s q) := by
  have hq : q.val < x.val + 1 := by omega
  simp [regsUpTo, readV, hq]

end Sys2Proof.Machine
end

