-- ==== Sys2Proof/Laws/Exec.lean ====
section
/-! SUPPORT. Laws/Exec.lean: what the meanings share: how an operation's answer becomes an outcome, the block accesses at
`I`, and what no instruction ever changes. -/

namespace Sys2Proof.Machine

@[simp] theorem finish_ok (s : State) : finish (.ok s) = .next s := rfl
@[simp] theorem finish_error (f : Fault) : finish (.error f) = .fault f := rfl

/-- An operation's answer is a next state exactly when it is that state. -/
theorem finish_eq_next (r : Except Fault State) (t : State) : finish r = .next t ↔ r = .ok t := by
  cases r <;> simp

/-- An operation's answer is never refused. -/
theorem finish_ne_refused (r : Except Fault State) (q : Refusal) : finish r ≠ .refused q := by
  cases r <;> simp [finish]

/-- All a read at `I` can do (R51, R52). -/
theorem readFromI_eq (s : State) (n : Nat) :
    readFromI s n =
      if n = 0 ∨ s.i.toNat + n ≤ memSize then .ok ((List.range n).map fun k => s.mem.read (s.i.toNat + k))
      else .error (.memOutOfRange (max s.i.toNat memSize)) :=
  readBlock_eq s.mem s.i.toNat n

/-- A write at `I` that answers a state changes memory only (R51, R52). -/
theorem writeFromI_ok (s t : State) (bs : List Byte) (h : writeFromI s bs = .ok t) :
    ∃ m, writeBlock s.mem s.i.toNat bs = .ok m ∧ t = setMem s m := by
  unfold writeFromI at h
  split at h
  · simp at h
  · rename_i m hm
    exact ⟨m, hm, by simpa using h.symm⟩

/-- When a write at `I` succeeds, and with which fault it does not (R52, R233). -/
theorem writeFromI_cases (s : State) (bs : List Byte) :
    if bs = [] ∨ s.i.toNat + bs.length ≤ memSize then
      ∃ m, writeBlock s.mem s.i.toNat bs = .ok m ∧ writeFromI s bs = .ok (setMem s m)
    else writeFromI s bs = .error (.memOutOfRange (max s.i.toNat memSize)) := by
  have h := writeBlock_cases bs s.mem s.i.toNat
  unfold writeFromI
  by_cases hc : bs = [] ∨ s.i.toNat + bs.length ≤ memSize
  · simp only [hc, if_true] at h ⊢
    obtain ⟨m, hm⟩ := h
    exact ⟨m, hm, by rw [hm]⟩
  · simp only [hc, if_false] at h ⊢
    rw [h]

/-- All a push can do (R122). -/
theorem pushReturn_ok (s t : State) (h : pushReturn s = .ok t) :
    s.sp ≠ 15 ∧ t = { s with sp := s.sp + 1, stack := s.stack.set (s.sp + 1).val s.pc (s.sp + 1).isLt } := by
  unfold pushReturn at h
  split at h
  · simp at h
  · rename_i hsp
    exact ⟨hsp, by simpa using h.symm⟩

/-- All a pop can do (R121). -/
theorem popReturn_ok (s t : State) (h : popReturn s = .ok t) :
    s.sp ≠ 0 ∧ t = { s with pc := s.stack[s.sp], sp := s.sp - 1 } := by
  unfold popReturn at h
  split at h
  · simp at h
  · rename_i hsp
    exact ⟨hsp, by simpa using h.symm⟩

/-- All `2nnn` can do (R122). -/
theorem exec_call_ok (nnn : BitVec 12) (s t : State) (h : exec (.call nnn) s = .next t) :
    s.sp ≠ 15 ∧ t = setPc { s with
      sp := s.sp + 1, stack := s.stack.set (s.sp + 1).val s.pc (s.sp + 1).isLt } (zextAddress nnn) := by
  have h := (finish_eq_next _ _).1 h
  split at h
  · simp at h
  · rename_i u hu
    obtain ⟨hsp, rfl⟩ := pushReturn_ok s u hu
    exact ⟨hsp, by simpa using h.symm⟩

/-- When a key number is one (R210, R211). -/
theorem keyNumber_eq (s : State) (x : Reg) :
    keyNumber s x =
      if 16 ≤ (readV s x).toNat then .error (.keyIndexOutOfRange (readV s x)) else .ok (readV s x).toNat := rfl

/-- `keyDown` at a key number is the snapshot's entry (R9). -/
theorem keyDown_eq (s : State) (k : Fin 16) : keyDown s k.val = (stepInput s).keys[k] := by
  simp [keyDown]

/-- There is no lowest key exactly where no key is pressed (R212). -/
theorem lowestKey_eq_none (s : State) :
    lowestKey s = none ↔ ∀ j : Fin 16, (stepInput s).keys[j] = false := by
  unfold lowestKey
  rw [List.find?_eq_none]
  constructor
  · intro h j
    have := h j.val (List.mem_range.2 j.isLt)
    rw [keyDown_eq] at this
    simpa using this
  · intro h k hk
    rw [keyDown_eq s ⟨k, List.mem_range.1 hk⟩, h]
    simp

/-- The lowest key is pressed and no key below it is (R212). -/
theorem lowestKey_eq_some (s : State) (k : Fin 16) :
    lowestKey s = some k.val ↔
      (stepInput s).keys[k] = true ∧ ∀ j : Fin 16, j < k → (stepInput s).keys[j] = false := by
  unfold lowestKey
  rw [List.find?_range_eq_some, keyDown_eq]
  constructor
  · rintro ⟨h1, -, h3⟩
    refine ⟨h1, fun j hj => ?_⟩
    have := h3 j.val hj
    rw [keyDown_eq] at this
    simpa using this
  · rintro ⟨h1, h2⟩
    refine ⟨h1, List.mem_range.2 k.isLt, fun j hj => ?_⟩
    rw [keyDown_eq s ⟨j, by omega⟩, h2 ⟨j, by omega⟩ hj]
    rfl

/-- A lowest key is a key number (R212). -/
theorem lowestKey_lt (s : State) (k : Nat) (h : lowestKey s = some k) : k < 16 := by
  unfold lowestKey at h
  exact List.mem_range.1 (List.find?_range_eq_some.1 h).2.1

/-- All `Ex9E` can do (R210). -/
theorem exec_skp_ok (x : Reg) (s t : State) (h : exec (.skp x) s = .next t) :
    (readV s x).toNat < 16 ∧ t = skipIf (keyDown s (readV s x).toNat) s := by
  have h := (finish_eq_next _ _).1 h
  rw [keyNumber_eq] at h
  split at h
  · simp at h
  · split at * <;> simp_all

/-- All `ExA1` can do (R211). -/
theorem exec_sknp_ok (x : Reg) (s t : State) (h : exec (.sknp x) s = .next t) :
    (readV s x).toNat < 16 ∧ t = skipIf (!keyDown s (readV s x).toNat) s := by
  have h := (finish_eq_next _ _).1 h
  rw [keyNumber_eq] at h
  split at h
  · simp at h
  · split at * <;> simp_all

/-- All `Fx0A` can do (R212). -/
theorem exec_ldK_ok (x : Reg) (s t : State) (h : exec (.ldK x) s = .next t) :
    (lowestKey s = none ∧ t = setPc s (fetchPC s)) ∨
    ∃ k, lowestKey s = some k ∧ t = writeV s x (BitVec.ofNat 8 k) := by
  cases hl : lowestKey s with
  | none => exact Or.inl ⟨rfl, by simpa [exec, execLdK, hl, eq_comm] using h⟩
  | some k => exact Or.inr ⟨k, rfl, by simpa [exec, execLdK, hl, eq_comm] using h⟩

/-- All `Fx65` can do (R175). -/
theorem exec_ldMemLoad_ok (x : Reg) (s t : State) (h : exec (.ldMemLoad x) s = .next t) :
    ∃ bs, readFromI s (x.val + 1) = .ok bs ∧ t = writeRegs s bs := by
  have h := (finish_eq_next _ _).1 h
  split at h
  · simp at h
  · rename_i bs hbs
    exact ⟨bs, hbs, by simpa using h.symm⟩

/-- All `Dxyn` can do (R192). -/
theorem exec_drw_ok (x y : Reg) (n : Fin 16) (s t : State) (h : exec (.drw x y n) s = .next t) :
    ∃ rows, readFromI s n.val = .ok rows ∧
      t = writeV (setScreen s (drawSprite s.fb (spriteX s x) (spriteY s y) rows).fb) regF
        (flagByte (drawSprite s.fb (spriteX s x) (spriteY s y) rows).hit) := by
  have h := (finish_eq_next _ _).1 h
  split at h
  · simp at h
  · rename_i rows hr
    exact ⟨rows, hr, by simpa using h.symm⟩

/-- No instruction is refused. -/
theorem exec_ne_refused (i : Instr) (s : State) (q : Refusal) : exec i s ≠ .refused q := by
  cases i <;> first
    | exact finish_ne_refused _ q
    | (intro h; cases h)

/-- What no instruction changes: the fault record, the period, the accumulator, the notice and the model's own fields
(R34, R106, R216). -/
theorem exec_keeps (i : Instr) (s t : State) (h : exec i s = .next t) :
    t.dtacc = s.dtacc ∧ KeepsRest s t := by
  cases i with
  | ret => obtain ⟨-, rfl⟩ := popReturn_ok s t ((finish_eq_next _ _).1 h); simp [KeepsRest]
  | call nnn => obtain ⟨-, rfl⟩ := exec_call_ok nnn s t h; simp [KeepsRest]
  | ldB x => obtain ⟨m, -, rfl⟩ := writeFromI_ok s t _ ((finish_eq_next _ _).1 h); simp [KeepsRest]
  | ldMemStore x => obtain ⟨m, -, rfl⟩ := writeFromI_ok s t _ ((finish_eq_next _ _).1 h); simp [KeepsRest]
  | ldMemLoad x => obtain ⟨bs, -, rfl⟩ := exec_ldMemLoad_ok x s t h; simp [KeepsRest]
  | drw x y n => obtain ⟨rows, -, rfl⟩ := exec_drw_ok x y n s t h; simp [KeepsRest]
  | skp x => obtain ⟨-, rfl⟩ := exec_skp_ok x s t h; simp [KeepsRest]
  | sknp x => obtain ⟨-, rfl⟩ := exec_sknp_ok x s t h; simp [KeepsRest]
  | ldK x => rcases exec_ldK_ok x s t h with ⟨-, rfl⟩ | ⟨k, -, rfl⟩ <;> simp [KeepsRest]
  | _ =>
    cases h
    simp [KeepsRest, writeWithFlag]

end Sys2Proof.Machine
end

