-- ==== Sys2Proof/Laws/PerInstr.lean ====
section
/-! SUPPORT. Laws/PerInstr.lean: what holds of every instruction as a term, one lemma per constructor: its operands fit the
fields the formats give them (R73, R74), and its word matches its own row of the opcode table. -/

namespace Sys2Proof.Laws

/-! ## The fields -/

theorem fits_reg (r : Reg) : (Field.reg r).fits = true := by
  have := r.isLt
  simp [Field.reg, Field.fits]

theorem fits_imm {k : Nat} (b : BitVec k) : (Field.imm b).fits = true := by
  exact decide_eq_true b.isLt

theorem fits_one {f : Field} (h : f.fits = true) : [f].all Field.fits = true := by
  simp [h]

theorem fits_two {f g : Field} (hf : f.fits = true) (hg : g.fits = true) : [f, g].all Field.fits = true := by
  simp [hf, hg]

theorem fits_three {f g h : Field} (hf : f.fits = true) (hg : g.fits = true) (hh : h.fits = true) :
    [f, g, h].all Field.fits = true := by
  simp [hf, hg, hh]

/-! ## The bits a row fixes -/

theorem and_ones (b : BitVec 4) : b &&& 0xF = b := by
  revert b
  decide

theorem and_ones_byte (b : Byte) : b &&& 0xFF = b := by
  revert b
  decide

theorem formatNNN_and (n0 : BitVec 4) (nnn : BitVec 12) : formatNNN n0 nnn &&& 0xF000 = n0 ++ (0 : BitVec 12) := by
  rw [formatNNN, show (0xF000 : Word) = (0xF : BitVec 4) ++ (0 : BitVec 12) from rfl, BitVec.and_append, and_ones]
  simp

theorem formatXKK_and (n0 : BitVec 4) (x : Reg) (kk : Byte) :
    formatXKK n0 x kk &&& 0xF000 = n0 ++ (0 : BitVec 4) ++ (0 : Byte) := by
  rw [formatXKK, show (0xF000 : Word) = (0xF : BitVec 4) ++ (0 : BitVec 4) ++ (0 : Byte) from rfl,
    BitVec.and_append, BitVec.and_append, and_ones]
  simp

theorem formatXKK_and_byte (n0 : BitVec 4) (x : Reg) (kk : Byte) :
    formatXKK n0 x kk &&& 0xF0FF = n0 ++ (0 : BitVec 4) ++ kk := by
  rw [formatXKK, show (0xF0FF : Word) = (0xF : BitVec 4) ++ (0 : BitVec 4) ++ (0xFF : Byte) from rfl,
    BitVec.and_append, BitVec.and_append, and_ones, and_ones_byte]
  simp

theorem formatXYN_and (n0 : BitVec 4) (x y : Reg) (n : BitVec 4) :
    formatXYN n0 x y n &&& 0xF000 = n0 ++ (0 : BitVec 4) ++ (0 : BitVec 4) ++ (0 : BitVec 4) := by
  rw [formatXYN, show (0xF000 : Word) = (0xF : BitVec 4) ++ (0 : BitVec 4) ++ (0 : BitVec 4) ++ (0 : BitVec 4) from rfl,
    BitVec.and_append, BitVec.and_append, BitVec.and_append, and_ones]
  simp

theorem formatXYN_and_nibble (n0 : BitVec 4) (x y : Reg) (n : BitVec 4) :
    formatXYN n0 x y n &&& 0xF00F = n0 ++ (0 : BitVec 4) ++ (0 : BitVec 4) ++ n := by
  rw [formatXYN, show (0xF00F : Word) = (0xF : BitVec 4) ++ (0 : BitVec 4) ++ (0 : BitVec 4) ++ (0xF : BitVec 4) from rfl,
    BitVec.and_append, BitVec.and_append, BitVec.and_append, and_ones, and_ones]
  simp

/-! ## The family -/

/-- An instruction's fields fit, and its word matches the row `r` of its mnemonic, the `k`-th of the table. -/
theorem fieldsFit_of (i : Instr) (r : OpcodeRow) (k : Nat) (hw : i.wellFormed = true) (hr : opcodeRows[k]? = some r)
    (hm : r.mnemonic = i.mnemonic) (hb : encode i &&& r.mask = r.pattern) :
    i.wellFormed = true ∧ ∃ r ∈ opcodeRows, r.mnemonic = i.mnemonic ∧ r.holds (encode i) = true :=
  ⟨hw, r, List.mem_of_getElem? hr, hm, beq_iff_eq.2 hb⟩

/-- An instruction is well formed, and its word matches the row of its mnemonic. -/
def FieldsFit.Statement (i : Instr) : Prop :=
  i.wellFormed = true ∧ ∃ r ∈ opcodeRows, r.mnemonic = i.mnemonic ∧ r.holds (encode i) = true

theorem FieldsFit.cls : FieldsFit.Statement .cls :=
  fieldsFit_of _ ⟨"CLS", 0xFFFF, 0x00E0⟩ 0 rfl rfl rfl
    rfl

theorem FieldsFit.ret : FieldsFit.Statement .ret :=
  fieldsFit_of _ ⟨"RET", 0xFFFF, 0x00EE⟩ 1 rfl rfl rfl
    rfl

theorem FieldsFit.jp (nnn : BitVec 12) : FieldsFit.Statement (.jp nnn) :=
  fieldsFit_of _ ⟨"JP", 0xF000, 0x1000⟩ 2 (fits_one (fits_imm nnn)) rfl rfl
    (formatNNN_and _ _)

theorem FieldsFit.call (nnn : BitVec 12) : FieldsFit.Statement (.call nnn) :=
  fieldsFit_of _ ⟨"CALL", 0xF000, 0x2000⟩ 3 (fits_one (fits_imm nnn)) rfl rfl
    (formatNNN_and _ _)

theorem FieldsFit.seImm (x : Reg) (kk : Byte) : FieldsFit.Statement (.seImm x kk) :=
  fieldsFit_of _ ⟨"SE_imm", 0xF000, 0x3000⟩ 4 (fits_two (fits_reg x) (fits_imm kk)) rfl rfl
    (formatXKK_and _ _ _)

theorem FieldsFit.sneImm (x : Reg) (kk : Byte) : FieldsFit.Statement (.sneImm x kk) :=
  fieldsFit_of _ ⟨"SNE_imm", 0xF000, 0x4000⟩ 5 (fits_two (fits_reg x) (fits_imm kk)) rfl rfl
    (formatXKK_and _ _ _)

theorem FieldsFit.seReg (x y : Reg) : FieldsFit.Statement (.seReg x y) :=
  fieldsFit_of _ ⟨"SE_reg", 0xF00F, 0x5000⟩ 6 (fits_two (fits_reg x) (fits_reg y)) rfl rfl
    (formatXYN_and_nibble _ _ _ _)

theorem FieldsFit.sneReg (x y : Reg) : FieldsFit.Statement (.sneReg x y) :=
  fieldsFit_of _ ⟨"SNE_reg", 0xF00F, 0x9000⟩ 7 (fits_two (fits_reg x) (fits_reg y)) rfl rfl
    (formatXYN_and_nibble _ _ _ _)

theorem FieldsFit.ldImm (x : Reg) (kk : Byte) : FieldsFit.Statement (.ldImm x kk) :=
  fieldsFit_of _ ⟨"LD_imm", 0xF000, 0x6000⟩ 8 (fits_two (fits_reg x) (fits_imm kk)) rfl rfl
    (formatXKK_and _ _ _)

theorem FieldsFit.addImm (x : Reg) (kk : Byte) : FieldsFit.Statement (.addImm x kk) :=
  fieldsFit_of _ ⟨"ADD_imm", 0xF000, 0x7000⟩ 9 (fits_two (fits_reg x) (fits_imm kk)) rfl rfl
    (formatXKK_and _ _ _)

theorem FieldsFit.ldReg (x y : Reg) : FieldsFit.Statement (.ldReg x y) :=
  fieldsFit_of _ ⟨"LD_reg", 0xF00F, 0x8000⟩ 10 (fits_two (fits_reg x) (fits_reg y)) rfl rfl
    (formatXYN_and_nibble _ _ _ _)

theorem FieldsFit.orReg (x y : Reg) : FieldsFit.Statement (.orReg x y) :=
  fieldsFit_of _ ⟨"OR", 0xF00F, 0x8001⟩ 11 (fits_two (fits_reg x) (fits_reg y)) rfl rfl
    (formatXYN_and_nibble _ _ _ _)

theorem FieldsFit.andReg (x y : Reg) : FieldsFit.Statement (.andReg x y) :=
  fieldsFit_of _ ⟨"AND", 0xF00F, 0x8002⟩ 12 (fits_two (fits_reg x) (fits_reg y)) rfl rfl
    (formatXYN_and_nibble _ _ _ _)

theorem FieldsFit.xorReg (x y : Reg) : FieldsFit.Statement (.xorReg x y) :=
  fieldsFit_of _ ⟨"XOR", 0xF00F, 0x8003⟩ 13 (fits_two (fits_reg x) (fits_reg y)) rfl rfl
    (formatXYN_and_nibble _ _ _ _)

theorem FieldsFit.addReg (x y : Reg) : FieldsFit.Statement (.addReg x y) :=
  fieldsFit_of _ ⟨"ADD_reg", 0xF00F, 0x8004⟩ 14 (fits_two (fits_reg x) (fits_reg y)) rfl rfl
    (formatXYN_and_nibble _ _ _ _)

theorem FieldsFit.subReg (x y : Reg) : FieldsFit.Statement (.subReg x y) :=
  fieldsFit_of _ ⟨"SUB", 0xF00F, 0x8005⟩ 15 (fits_two (fits_reg x) (fits_reg y)) rfl rfl
    (formatXYN_and_nibble _ _ _ _)

theorem FieldsFit.shr (x y : Reg) : FieldsFit.Statement (.shr x y) :=
  fieldsFit_of _ ⟨"SHR", 0xF00F, 0x8006⟩ 16 (fits_two (fits_reg x) (fits_reg y)) rfl rfl
    (formatXYN_and_nibble _ _ _ _)

theorem FieldsFit.subnReg (x y : Reg) : FieldsFit.Statement (.subnReg x y) :=
  fieldsFit_of _ ⟨"SUBN", 0xF00F, 0x8007⟩ 17 (fits_two (fits_reg x) (fits_reg y)) rfl rfl
    (formatXYN_and_nibble _ _ _ _)

theorem FieldsFit.shl (x y : Reg) : FieldsFit.Statement (.shl x y) :=
  fieldsFit_of _ ⟨"SHL", 0xF00F, 0x800E⟩ 18 (fits_two (fits_reg x) (fits_reg y)) rfl rfl
    (formatXYN_and_nibble _ _ _ _)

theorem FieldsFit.ldI (nnn : BitVec 12) : FieldsFit.Statement (.ldI nnn) :=
  fieldsFit_of _ ⟨"LD_I", 0xF000, 0xA000⟩ 19 (fits_one (fits_imm nnn)) rfl rfl
    (formatNNN_and _ _)

theorem FieldsFit.jpV0 (nnn : BitVec 12) : FieldsFit.Statement (.jpV0 nnn) :=
  fieldsFit_of _ ⟨"JP_V0", 0xF000, 0xB000⟩ 20 (fits_one (fits_imm nnn)) rfl rfl
    (formatNNN_and _ _)

theorem FieldsFit.rnd (x : Reg) (kk : Byte) : FieldsFit.Statement (.rnd x kk) :=
  fieldsFit_of _ ⟨"RND", 0xF000, 0xC000⟩ 21 (fits_two (fits_reg x) (fits_imm kk)) rfl rfl
    (formatXKK_and _ _ _)

theorem FieldsFit.drw (x y : Reg) (n : Fin 16) : FieldsFit.Statement (.drw x y n) :=
  fieldsFit_of _ ⟨"DRW", 0xF000, 0xD000⟩ 22 (fits_three (fits_reg x) (fits_reg y) (fits_reg n)) rfl rfl
    (formatXYN_and _ _ _ _)

theorem FieldsFit.skp (x : Reg) : FieldsFit.Statement (.skp x) :=
  fieldsFit_of _ ⟨"SKP", 0xF0FF, 0xE09E⟩ 23 (fits_one (fits_reg x)) rfl rfl
    (formatXKK_and_byte _ _ _)

theorem FieldsFit.sknp (x : Reg) : FieldsFit.Statement (.sknp x) :=
  fieldsFit_of _ ⟨"SKNP", 0xF0FF, 0xE0A1⟩ 24 (fits_one (fits_reg x)) rfl rfl
    (formatXKK_and_byte _ _ _)

theorem FieldsFit.ldVxDT (x : Reg) : FieldsFit.Statement (.ldVxDT x) :=
  fieldsFit_of _ ⟨"LD_Vx_DT", 0xF0FF, 0xF007⟩ 25 (fits_one (fits_reg x)) rfl rfl
    (formatXKK_and_byte _ _ _)

theorem FieldsFit.ldK (x : Reg) : FieldsFit.Statement (.ldK x) :=
  fieldsFit_of _ ⟨"LD_K", 0xF0FF, 0xF00A⟩ 26 (fits_one (fits_reg x)) rfl rfl
    (formatXKK_and_byte _ _ _)

theorem FieldsFit.ldDTVx (x : Reg) : FieldsFit.Statement (.ldDTVx x) :=
  fieldsFit_of _ ⟨"LD_DT_Vx", 0xF0FF, 0xF015⟩ 27 (fits_one (fits_reg x)) rfl rfl
    (formatXKK_and_byte _ _ _)

theorem FieldsFit.ldSTVx (x : Reg) : FieldsFit.Statement (.ldSTVx x) :=
  fieldsFit_of _ ⟨"LD_ST_Vx", 0xF0FF, 0xF018⟩ 28 (fits_one (fits_reg x)) rfl rfl
    (formatXKK_and_byte _ _ _)

theorem FieldsFit.addI (x : Reg) : FieldsFit.Statement (.addI x) :=
  fieldsFit_of _ ⟨"ADD_I", 0xF0FF, 0xF01E⟩ 29 (fits_one (fits_reg x)) rfl rfl
    (formatXKK_and_byte _ _ _)

theorem FieldsFit.ldF (x : Reg) : FieldsFit.Statement (.ldF x) :=
  fieldsFit_of _ ⟨"LD_F", 0xF0FF, 0xF029⟩ 30 (fits_one (fits_reg x)) rfl rfl
    (formatXKK_and_byte _ _ _)

theorem FieldsFit.ldB (x : Reg) : FieldsFit.Statement (.ldB x) :=
  fieldsFit_of _ ⟨"LD_B", 0xF0FF, 0xF033⟩ 31 (fits_one (fits_reg x)) rfl rfl
    (formatXKK_and_byte _ _ _)

theorem FieldsFit.ldMemStore (x : Reg) : FieldsFit.Statement (.ldMemStore x) :=
  fieldsFit_of _ ⟨"LD_mem_store", 0xF0FF, 0xF055⟩ 32 (fits_one (fits_reg x)) rfl rfl
    (formatXKK_and_byte _ _ _)

theorem FieldsFit.ldMemLoad (x : Reg) : FieldsFit.Statement (.ldMemLoad x) :=
  fieldsFit_of _ ⟨"LD_mem_load", 0xF0FF, 0xF065⟩ 33 (fits_one (fits_reg x)) rfl rfl
    (formatXKK_and_byte _ _ _)

end Sys2Proof.Laws
end

