-- ==== Sys2Proof/Laws/Step.lean ====
section
/-! SUPPORT. Laws/Step.lean: all a step can do, and all construction leaves, said once. -/

namespace Sys2Proof.Machine

/-- A word's execution is never refused. -/
theorem executeWord_ne_refused (w : Word) (s : State) (q : Refusal) : executeWord w s ≠ .refused q := by
  unfold executeWord
  split
  · exact exec_ne_refused _ _ _
  · simp

/-- What a word's execution never changes but for the notice (R106). -/
theorem executeWord_keeps (w : Word) (s t : State) (h : executeWord w s = .next t) :
    t.dtacc = s.dtacc ∧ t.fault = s.fault ∧ t.periodNs = s.periodNs ∧ t.inputs = s.inputs ∧ t.ticks = s.ticks ∧
      t.phase = s.phase := by
  unfold executeWord at h
  split at h
  · obtain ⟨h1, h2, h3, -, h4, h5, h6⟩ := exec_keeps _ _ _ h
    exact ⟨h1, h2, h3, h4, h5, h6⟩
  · cases h; simp

/-- A step's outcome where the core has not faulted and the fetch succeeds (R100). -/
theorem step_of_fetch (s : State) (w : Word) (hf : s.fault = none) (hw : fetchWord s.mem s.pc.toNat = .ok w) :
    step s = concludeStep s (executeWord w (advancePc (startStep s))) := by
  simp [step, stepCore, hf, hw]

/-- All a step can do: a faulted core only reports (R108); a fault raised by the fetch or by the instruction ends the step in
the faulted state entered from its start (R14, R231); otherwise the word runs and the step closes (R100). -/
theorem step_cases (s t : State) (h : step s = .next t) :
    (∃ f, s.fault = some f ∧ t = closeStep (clearOutputs s)) ∨
    (s.fault = none ∧ ∃ f, t = endInFault s f) ∨
    (s.fault = none ∧ ∃ w u, fetchWord s.mem s.pc.toNat = .ok w ∧
      executeWord w (advancePc (startStep s)) = .next u ∧ t = closeStep u) := by
  cases hf : s.fault with
  | some f => exact Or.inl ⟨f, rfl, by simpa [step, stepCore, hf] using h.symm⟩
  | none =>
    right
    cases hw : fetchWord s.mem s.pc.toNat with
    | error f => exact Or.inl ⟨rfl, f, by simpa [step, stepCore, hf, hw] using h.symm⟩
    | ok w =>
      rw [step_of_fetch s w hf hw] at h
      cases hx : executeWord w (advancePc (startStep s)) with
      | next u =>
        rw [hx] at h
        exact Or.inr ⟨rfl, w, u, rfl, hx, by simpa [concludeStep] using h.symm⟩
      | fault f =>
        rw [hx] at h
        exact Or.inl ⟨rfl, f, by simpa [concludeStep] using h.symm⟩
      | refused q => exact absurd hx (executeWord_ne_refused _ _ _)

/-! ## What construction leaves (R260) -/

@[simp] theorem construct_mem (p : Params) : (State.construct p).mem = Memory.ofBytes (resetByte p) := by
  simp only [State.construct]
@[simp] theorem construct_v (p : Params) : (State.construct p).v = Vector.replicate 16 0 := rfl
@[simp] theorem construct_pc (p : Params) : (State.construct p).pc = 0x200 := rfl
@[simp] theorem construct_i (p : Params) : (State.construct p).i = 0 := rfl
@[simp] theorem construct_sp (p : Params) : (State.construct p).sp = 0 := rfl
@[simp] theorem construct_stack (p : Params) : (State.construct p).stack = Vector.replicate 16 0 := rfl
@[simp] theorem construct_dt (p : Params) : (State.construct p).dt = 0 := rfl
@[simp] theorem construct_st (p : Params) : (State.construct p).st = 0 := rfl
@[simp] theorem construct_dtacc (p : Params) : (State.construct p).dtacc = timerPeriodNs := rfl
@[simp] theorem construct_fb (p : Params) : (State.construct p).fb = blankScreen := rfl
@[simp] theorem construct_fault (p : Params) : (State.construct p).fault = none := rfl
@[simp] theorem construct_periodNs (p : Params) : (State.construct p).periodNs = p.periodNs := rfl
@[simp] theorem construct_displayChanged (p : Params) : (State.construct p).displayChanged = false := rfl
@[simp] theorem construct_unknownOpcode (p : Params) : (State.construct p).unknownOpcode = false := rfl
@[simp] theorem construct_inputs (p : Params) : (State.construct p).inputs = [] := rfl
@[simp] theorem construct_ticks (p : Params) : (State.construct p).ticks = 0 := rfl
@[simp] theorem construct_phase (p : Params) : (State.construct p).phase = .constructed := rfl

end Sys2Proof.Machine
end

