-- ==== Sys2Proof/Tests/Slice0.lean ====
section
/-! SUPPORT. Tests/Slice0.lean: the model's own tests. Expected values are those of spec/95_test_vectors.md (named W or T as
there) or are worked out by hand from the rule named. -/

namespace Sys2Proof.Tests

open Sys2Proof.Machine

/-! ## Well-formedness -/

/-- A register field holding 16 does not fit its four bits. -/
theorem test_wf_field_reg_16_refused : (Field.mk 4 16).fits = false := by decide

/-- An address field holding 0x1000 does not fit its twelve bits. -/
theorem test_wf_field_nnn_0x1000_refused : (Field.mk 12 0x1000).fits = false := by decide

/-- A byte field holding 256 does not fit its eight bits. -/
theorem test_wf_field_kk_256_refused : (Field.mk 8 256).fits = false := by decide

/-- A step period of 0 ns is no period (R6, D18). -/
theorem test_wf_period_0_refused : (Params.mk 0 (fun _ => 0) fontTable).wellFormed = false := by decide

/-- A ROM of 3585 bytes does not fit (R263), one of 3584 does. -/
theorem test_wf_rom_3585_refused : romWellFormed (List.replicate 3585 0) = false := by
  unfold romWellFormed
  rw [List.length_replicate]
  exact decide_eq_false (by omega)

theorem test_wf_rom_3584_accepted : romWellFormed (List.replicate 3584 0) = true := by
  unfold romWellFormed
  rw [List.length_replicate]
  exact decide_eq_true (by omega)

theorem test_wf_instruction_accepted : (Instr.drw 15 15 15).wellFormed = true := by decide

/-! ## Decoding: words written out from R74 and R76, fields chosen so that a swap of two of them shows -/

theorem test_decode_fixed : decodeWord 0b0000000011100000 = .ok .cls ∧ decodeWord 0b0000000011101110 = .ok .ret := by
  decide

theorem test_decode_nnn :
    decodeWord 0b0001001000110100 = .ok (.jp 0x234) ∧ decodeWord 0b0010111111111110 = .ok (.call 0xFFE) ∧
      decodeWord 0b1010001000101010 = .ok (.ldI 0x22A) ∧ decodeWord 0b1011001100000000 = .ok (.jpV0 0x300) := by
  decide

theorem test_decode_xkk :
    decodeWord 0b0011001000010000 = .ok (.seImm 2 0x10) ∧ decodeWord 0b0100001100001111 = .ok (.sneImm 3 0x0F) ∧
      decodeWord 0b0110101001000010 = .ok (.ldImm 0xA 0x42) ∧ decodeWord 0b0111001100000010 = .ok (.addImm 3 0x02) ∧
      decodeWord 0b1100001100001111 = .ok (.rnd 3 0x0F) := by
  decide

theorem test_decode_xy0 :
    decodeWord 0b0101000100100000 = .ok (.seReg 1 2) ∧ decodeWord 0b1001000100100000 = .ok (.sneReg 1 2) := by
  decide

theorem test_decode_alu_low :
    decodeWord 0b1000000100100000 = .ok (.ldReg 1 2) ∧ decodeWord 0b1000000100100001 = .ok (.orReg 1 2) ∧
      decodeWord 0b1000000100100010 = .ok (.andReg 1 2) ∧ decodeWord 0b1000000100100011 = .ok (.xorReg 1 2) ∧
      decodeWord 0b1000000100100100 = .ok (.addReg 1 2) := by
  decide

theorem test_decode_alu_high :
    decodeWord 0b1000001000010101 = .ok (.subReg 2 1) ∧ decodeWord 0b1000010011110110 = .ok (.shr 4 15) ∧
      decodeWord 0b1000000100100111 = .ok (.subnReg 1 2) ∧ decodeWord 0b1000001011111110 = .ok (.shl 2 15) := by
  decide

theorem test_decode_xyn : decodeWord 0b1101000000010010 = .ok (.drw 0 1 2) := by decide

theorem test_decode_keys :
    decodeWord 0b1110010110011110 = .ok (.skp 5) ∧ decodeWord 0b1110010110100001 = .ok (.sknp 5) ∧
      decodeWord 0b1111001100001010 = .ok (.ldK 3) := by
  decide

theorem test_decode_timers :
    decodeWord 0b1111000100000111 = .ok (.ldVxDT 1) ∧ decodeWord 0b1111001000010101 = .ok (.ldDTVx 2) ∧
      decodeWord 0b1111001100011000 = .ok (.ldSTVx 3) := by
  decide

theorem test_decode_index :
    decodeWord 0b1111000100011110 = .ok (.addI 1) ∧ decodeWord 0b1111001000101001 = .ok (.ldF 2) ∧
      decodeWord 0b1111001100110011 = .ok (.ldB 3) ∧ decodeWord 0b1111010001010101 = .ok (.ldMemStore 4) ∧
      decodeWord 0b1111010101100101 = .ok (.ldMemLoad 5) := by
  decide

/-- The UNKNOWN words of TX7 to TX9. -/
theorem test_decode_unknown :
    decodeWord 0x0123 = .error .unknown0 ∧ decodeWord 0x0000 = .error .unknown0 ∧
      decodeWord 0x5121 = .error .unknown5 ∧ decodeWord 0x912F = .error .unknown9 ∧
      decodeWord 0x8128 = .error .unknown8 ∧ decodeWord 0x812F = .error .unknown8 ∧
      decodeWord 0xE0FF = .error .unknownE ∧ decodeWord 0xF030 = .error .unknownF := by
  decide

theorem test_decode_bytes_big_endian : decode [0x12, 0x34, 0x56] = .ok (.jp 0x234, [0x56]) := by decide

theorem test_decode_one_byte_truncated : decode [0x12] = .error .truncated := by decide

theorem test_decode_table_word : decodeTableWord 16 0x1234 = some (.jp 0x234) := by decide

/-! ## One step -/

/-- The start state of the vectors: reset, with a period of 2,000,000 ns. -/
def base : State := { State.reset with periodNs := 2000000 }

/-- The state after one step that fetches the word `w`. -/
def after (s : State) (w : Nat) : Option State :=
  match step (s.withFetchWord 16 w) with
  | .next t => some t
  | _ => none

/-- A snapshot with the listed keys pressed. -/
def pressed (ks : List Nat) : Vector Bool 16 := Vector.ofFn fun k => ks.contains k.val

/-- The start state with one host call to come. -/
def withKeys (ks : List Nat) (rnd : Byte) : State := { base with inputs := [⟨pressed ks, rnd⟩] }

/-- The byte at an address, after the step. -/
def byteAt (t : State) (a : Nat) : Byte := t.mem.read a

/-- TX1. -/
theorem test_jp : (after base 0x1234).map (·.pc) = some 0x234 := by decide

/-- W8. -/
theorem test_call : (after base 0x2208).map (fun t => (t.pc, t.sp, t.stack[1])) = some (0x208, 1, 0x202) := by decide

/-- R122: with the stack full the step faults with the fetch address and keeps PC. -/
theorem test_call_full :
    (after { base with sp := 15 } 0x2300).map (fun t => (t.pc, t.sp, t.fault)) =
      some (0x200, 15, some (.stackOverflow 0x200)) := by decide

/-- W8. -/
theorem test_ret :
    (after { base with sp := 1, stack := base.stack.set 1 0x202 } 0x00EE).map (fun t => (t.pc, t.sp, t.stack[1])) =
      some (0x202, 0, 0x202) := by decide

/-- R121: an empty stack. -/
theorem test_ret_empty :
    (after base 0x00EE).map (fun t => (t.pc, t.fault)) = some (0x200, some (.stackUnderflow 0x200)) := by decide

theorem test_se_imm : (after (writeV base 2 0x10) 0x3210).map (·.pc) = some 0x204 := by decide
theorem test_se_imm_not : (after (writeV base 2 0x11) 0x3210).map (·.pc) = some 0x202 := by decide
theorem test_sne_imm : (after (writeV base 2 0x11) 0x4210).map (·.pc) = some 0x204 := by decide
theorem test_se_reg : (after (writeV base 2 1) 0x5120).map (·.pc) = some 0x202 := by decide
theorem test_sne_reg : (after (writeV base 2 1) 0x9120).map (·.pc) = some 0x204 := by decide

/-- R103: a skip from 0xFFC goes to 0x1000, not to 0x000. -/
theorem test_skip_past_top : (after { base with pc := 0xFFC } 0x3000).map (·.pc) = some 0x1000 := by decide

/-- R127: 0xFFF + 0xFF. -/
theorem test_jp_v0 : (after (writeV base 0 0xFF) 0xBFFF).map (·.pc) = some 0x10FE := by decide

theorem test_ld_imm : (after base 0x6A42).map (fun t => (readV t 0xA, t.pc)) = some (0x42, 0x202) := by decide

/-- TX3: the advance wraps. -/
theorem test_ld_imm_at_top : (after { base with pc := 0xFFE } 0x6001).map (fun t => (readV t 0, t.pc)) = some (1, 0) := by
  decide

/-- W1. -/
theorem test_add_imm :
    (after (writeV (writeV base 3 0xFF) 15 0x55) 0x7302).map (fun t => (readV t 3, readV t 15)) = some (1, 0x55) := by
  decide

/-- The examples of R142 to R145, and D7: VF stays. -/
theorem test_ld_reg : (after (writeV base 2 0x5A) 0x8120).map (readV · 1) = some 0x5A := by decide
theorem test_or :
    (after (writeV (writeV (writeV base 1 0x0F) 2 0xF0) 15 7) 0x8121).map (fun t => (readV t 1, readV t 15)) =
      some (0xFF, 7) := by decide
theorem test_and :
    (after (writeV (writeV (writeV base 1 0x3C) 2 0x0F) 15 7) 0x8122).map (fun t => (readV t 1, readV t 15)) =
      some (0x0C, 7) := by decide
theorem test_xor :
    (after (writeV (writeV (writeV base 1 0xFF) 2 0x0F) 15 7) 0x8123).map (fun t => (readV t 1, readV t 15)) =
      some (0xF0, 7) := by decide

/-- W2. -/
theorem test_add_reg_carry :
    (after (writeV (writeV base 0 0xFF) 1 1) 0x8014).map (fun t => (readV t 0, readV t 15)) = some (0, 1) := by decide
theorem test_add_reg_255 :
    (after (writeV (writeV base 0 0x7F) 1 0x80) 0x8014).map (fun t => (readV t 0, readV t 15)) = some (0xFF, 0) := by
  decide
theorem test_sub_equal :
    (after (writeV (writeV base 0 7) 1 7) 0x8015).map (fun t => (readV t 0, readV t 15)) = some (0, 1) := by decide
theorem test_sub_borrow :
    (after (writeV (writeV base 0 3) 1 5) 0x8015).map (fun t => (readV t 0, readV t 15)) = some (0xFE, 0) := by decide

/-- R148's example; R148 with x = F. -/
theorem test_shr : (after (writeV base 4 5) 0x8406).map (fun t => (readV t 4, readV t 15)) = some (2, 1) := by decide
theorem test_shr_vf : (after (writeV base 15 3) 0x8F06).map (readV · 15) = some 1 := by decide

/-- R149's example. -/
theorem test_subn :
    (after (writeV (writeV base 1 5) 2 3) 0x8127).map (fun t => (readV t 1, readV t 15)) = some (0xFE, 0) := by decide

/-- R150's example. -/
theorem test_shl : (after (writeV base 2 0xFF) 0x822E).map (fun t => (readV t 2, readV t 15)) = some (0xFE, 1) := by
  decide

/-- R152's example. -/
theorem test_rnd : (after (withKeys [] 0xA7) 0xC30F).map (readV · 3) = some 7 := by decide

/-- R170's and R171's examples. -/
theorem test_ld_i : (after base 0xA22A).map (·.i) = some 0x22A := by decide
theorem test_add_i :
    (after (writeV { base with i := 0x0FFF } 1 1) 0xF11E).map (fun t => (t.i, readV t 15)) = some (0x1000, 1) := by
  decide
theorem test_add_i_16_bits :
    (after (writeV { base with i := 0xFFFF } 1 2) 0xF11E).map (fun t => (t.i, readV t 15)) = some (1, 1) := by decide

/-- R172: the example, and V[x] of 255 unmasked. -/
theorem test_ld_f : (after (writeV base 0 0x0A) 0xF029).map (·.i) = some 0x082 := by decide
theorem test_ld_f_unmasked : (after (writeV base 0 255) 0xF029).map (·.i) = some 0x54B := by decide

/-- R173: 255 at the last place that holds three bytes, and one further. -/
theorem test_ld_b :
    (after (writeV { base with i := 0xFFD } 0 255) 0xF033).map (fun t => [0xFFD, 0xFFE, 0xFFF].map (byteAt t)) =
      some [2, 5, 5] := by decide
theorem test_ld_b_outside :
    (after (writeV { base with i := 0xFFE } 0 255) 0xF033).map (fun t => (byteAt t 0xFFE, t.fault)) =
      some (0, some (.memOutOfRange 0x1000)) := by decide

/-- R174: ascending, I unchanged. -/
theorem test_store :
    (after (writeV (writeV { base with i := 0x400 } 0 7) 1 8) 0xF155).map
        (fun t => (byteAt t 0x400, byteAt t 0x401, byteAt t 0x402, t.i)) =
      some (7, 8, 0, 0x400) := by decide

/-- R175: the font's first bytes (R31), and a register past x kept. -/
theorem test_load :
    (after (writeV { base with i := 0x050 } 2 9) 0xF165).map (fun t => (readV t 0, readV t 1, readV t 2, t.i)) =
      some (0xF0, 0x90, 9, 0x050) := by decide

/-- R190: a clear of a clear screen signals. -/
theorem test_cls : (after base 0x00E0).map (·.displayChanged) = some true := by decide
theorem test_cls_pixel :
    (after { base with fb := setPixel blankScreen 63 31 true } 0x00E0).map (fun t => pixel t.fb 63 31) = some false := by
  decide

/-- R191: the font's row 0xF0 at (62, 5) shows bits 7 and 6 and is clipped at the right edge. -/
theorem test_drw_clips :
    (after (writeV (writeV { base with i := 0x050 } 0 62) 1 5) 0xD011).map
        (fun t => (pixel t.fb 62 5, pixel t.fb 63 5, pixel t.fb 0 5, pixel t.fb 0 6, readV t 15)) =
      some (true, true, false, false, 0) := by decide

/-- R192: a pixel that was on goes off and is a collision. -/
theorem test_drw_collision :
    (after { base with i := 0x050, fb := setPixel blankScreen 0 0 true } 0xD001).map
        (fun t => (pixel t.fb 0 0, pixel t.fb 1 0, pixel t.fb 4 0, readV t 15, t.displayChanged)) =
      some (false, true, false, 1, true) := by decide

/-- R210, R211. -/
theorem test_skp : (after (writeV (withKeys [10] 0) 5 10) 0xE59E).map (·.pc) = some 0x204 := by decide
theorem test_sknp : (after (writeV (withKeys [10] 0) 5 10) 0xE5A1).map (·.pc) = some 0x202 := by decide
theorem test_sknp_no_key :
    (after (writeV (withKeys [10] 0) 5 16) 0xE5A1).map (·.fault) = some (some (.keyIndexOutOfRange 16)) := by decide

/-- W5. -/
theorem test_ld_k : (after (withKeys [5, 9] 0) 0xF30A).map (fun t => (readV t 3, t.pc)) = some (5, 0x202) := by decide
theorem test_ld_k_waits : (after { withKeys [] 0 with pc := 0xFFE } 0xF30A).map (·.pc) = some 0xFFE := by decide

/-- R213, R268: the read comes after the tick of the same step. -/
theorem test_ld_vx_dt : (after { base with dt := 5, dtacc := 2000000 } 0xF107).map (readV · 1) = some 4 := by decide

/-- R214: the write comes after the tick, and the accumulator goes on. -/
theorem test_ld_dt_vx :
    (after (writeV { base with dt := 9, dtacc := 2000000 } 0 5) 0xF015).map (fun t => (t.dt, t.dtacc)) =
      some (5, 16666667) := by decide

/-- R215. -/
theorem test_ld_st_vx : (after (writeV base 0 1) 0xF018).map (fun t => (t.st, buzzer t)) = some (1, true) := by decide

/-- TX7. -/
theorem test_unknown : (after base 0x0123).map (fun t => (t.pc, t.unknownOpcode)) = some (0x202, true) := by decide

/-! ## Witnesses: for each obligation with hypotheses, states and operands that meet all of them -/

/-- The start state with the word `w` at its PC, for a step to come. -/
def ready (s : State) (w : Nat) : State := s.withFetchWord 16 w

theorem witness_EncodeOfDecodedWordIsTheWord : decodeWord 0x84F6 = .ok (.shr 4 15) := by decide

theorem witness_DecoderAgreesWithOpcodeTable :
    OpcodeRow.mk "JP" 0xF000 0x1000 ∈ opcodeRows ∧ (OpcodeRow.mk "JP" 0xF000 0x1000).holds 0x1FFF = true ∧
      decodeWord 0x1FFF = .ok (.jp 0xFFF) :=
  ⟨List.mem_of_getElem? (i := 2) rfl, rfl, by decide⟩

theorem witness_StepRunsDecodedInstruction : (ready base 0x1234).fault = none ∧ Fetches (ready base 0x1234) (.jp 0x234) :=
  ⟨rfl, 0x1234, by decide, by decide⟩

/-- Its clause on the fetch, at the last address that has two bytes: the high byte lies at PC. -/
theorem witness_StepRunsDecodedInstruction_fetch :
    (ready { base with pc := 0xFFE } 0x1234).pc.toNat ≤ 0xFFE ∧
      (ready { base with pc := 0xFFE } 0x1234).mem.read 0xFFE = 0x12 ∧
      (ready { base with pc := 0xFFE } 0x1234).mem.read 0xFFF = 0x34 := by decide

/-- The instruction of the same statement may raise a fault: a return with the stack empty. -/
theorem witness_StepRunsDecodedInstruction_fault :
    (ready base 0x00EE).fault = none ∧ Fetches (ready base 0x00EE) .ret ∧
      exec .ret (advancePc (timerPolicy (clearOutputs (ready base 0x00EE)))) = .fault (.stackUnderflow 0x200) :=
  ⟨rfl, ⟨0x00EE, by decide, by decide⟩, rfl⟩

theorem witness_UnknownWordIsNoOpWithNotice :
    (ready base 0x0123).fault = none ∧ fetchWord (ready base 0x0123).mem (ready base 0x0123).pc.toNat = .ok 0x0123 ∧
      decodeWord 0x0123 = .error .unknown0 :=
  ⟨rfl, by decide, by decide⟩

/-- The first address that faults, and the first that is no address of memory. -/
theorem witness_FetchOutsideMemoryFaults :
    ({ base with pc := 0xFFF } : State).fault = none ∧ 0xFFF ≤ (0xFFF : Word).toNat ∧
      ({ base with pc := 0x1000 } : State).fault = none ∧ 0xFFF ≤ (0x1000 : Word).toNat := by decide

theorem witness_FaultingStepCommitsNothing :
    (ready base 0x00EE).fault = none ∧
      ∃ t, step (ready base 0x00EE) = .next t ∧ t.fault = some (.stackUnderflow 0x200) :=
  ⟨rfl, _, rfl, rfl⟩

theorem witness_FaultedCoreChangesNothing :
    (enterFault base (.stackUnderflow 0x200)).fault = some (.stackUnderflow 0x200) := rfl

/-- A state fetches one word only. -/
theorem fetches_unique (s : State) (w : Word) (i j : Instr) (hw : fetchWord s.mem s.pc.toNat = .ok w)
    (hd : decodeWord w = .ok i) (h : Fetches s j) : j = i := by
  obtain ⟨w', hw', hd'⟩ := h
  rw [hw] at hw'
  cases hw'
  rw [hd] at hd'
  cases hd'
  rfl

/-- The state of the next two witnesses fetches a jump. -/
theorem ready_fetches_only_jp (j : Instr) (hj : j ≠ .jp 0x234) : ¬ Fetches (ready base 0x1234) j :=
  fun h => hj (fetches_unique (ready base 0x1234) 0x1234 (.jp 0x234) j (by decide) (by decide) h)

theorem witness_RandomByteReachesOnlyRnd : ∀ x kk, ¬ Fetches (ready base 0x1234) (.rnd x kk) :=
  fun _ _ => ready_fetches_only_jp _ (by simp)

theorem witness_KeysReachOnlyKeyInstructions :
    ∀ x, ¬ Fetches (ready base 0x1234) (.skp x) ∧ ¬ Fetches (ready base 0x1234) (.sknp x) ∧
      ¬ Fetches (ready base 0x1234) (.ldK x) :=
  fun _ => ⟨ready_fetches_only_jp _ (by simp), ready_fetches_only_jp _ (by simp), ready_fetches_only_jp _ (by simp)⟩

/-- The longest ROM. -/
theorem witness_LoadCopiesRomTo0x200 :
    base.mem.wf = true ∧ base.fault = none ∧ base.phase = .constructed ∧ (List.replicate 3584 (0 : Byte)).length ≤ 3584 :=
  ⟨rfl, rfl, rfl, by rw [List.length_replicate]⟩

/-- The shortest ROM that is too long; a core with a ROM loaded; a core that has been stepped. -/
theorem witness_LoadOutOfBoundsOrOrderStops :
    (base.fault = none ∧ base.phase = .constructed ∧ 3584 < (List.replicate 3585 (0 : Byte)).length) ∧
      (({ base with phase := .loaded } : State).fault = none ∧ ({ base with phase := .loaded } : State).phase = .loaded) ∧
      ∃ t, base.fault = none ∧ step base = .next t ∧ t.fault = none :=
  ⟨⟨rfl, rfl, by rw [List.length_replicate]; omega⟩, ⟨rfl, rfl⟩, _, rfl, rfl, rfl⟩

/-- The start state meets the invariant. -/
theorem base_inv : Inv base :=
  ⟨rfl, by decide, by decide, by decide, by decide, by decide, by decide⟩

theorem witness_ConstructAndLoadMeetInvariant :
    (Params.mk 1 (fun _ => 0) fontTable).wellFormed = true ∧ Inv base ∧ ∃ t, State.load [0x12, 0x00] base = .next t :=
  ⟨rfl, base_inv, _, rfl⟩

theorem witness_EveryStepKeepsInvariant : Inv base ∧ ∃ t, step base = .next t := ⟨base_inv, _, rfl⟩

theorem witness_CanonicalMemoriesReadingAlikeAreEqual :
    Memory.wf [(0x200, 1), (0xFFF, 2)] = true ∧
      ∀ a, Memory.read [(0x200, 1), (0xFFF, 2)] a = Memory.read [(0x200, 1), (0xFFF, 2)] a :=
  ⟨by decide, fun _ => rfl⟩

/-- Both sides of the point where the accumulator reaches zero, and a step without a fault. -/
theorem witness_TimerPolicyCountsDown :
    ({ base with dtacc := 2000000 } : State).dtacc ≤ base.periodNs ∧
      base.periodNs < ({ base with dtacc := 2000001 } : State).dtacc ∧
      ∃ t, base.fault = none ∧ step base = .next t ∧ t.fault = none :=
  ⟨by decide, by decide, _, rfl, rfl, rfl⟩

/-- A period for which K is 2: after one step the next step ticks, after none it does not. -/
theorem witness_TimersTickEveryKthStep :
    ({ base with periodNs := 16666666 } : State).fault = none ∧
      ({ base with periodNs := 16666666 } : State).dtacc = 16666667 ∧ 1 ≤ 16666666 ∧
      (16666667 + 16666666 - 1) / 16666666 = 2 ∧
      ∃ t, Sys2Proof.core.run 1 ({ base with periodNs := 16666666 } : State) = .next t ∧ State.fault t = none ∧
        State.dtacc t = 1 :=
  ⟨rfl, rfl, by decide, by decide, _, rfl, rfl, rfl⟩

/-- The last call that has a slot, and the first return that has an entry. -/
theorem witness_CallPushesReturnAddress : ({ base with sp := 14 } : State).sp ≠ 15 := by decide
theorem witness_RetPopsReturnAddress : ({ base with sp := 1 } : State).sp ≠ 0 := by decide

theorem witness_StackLimitsFault :
    ((ready { base with sp := 15 } 0x2300).fault = none ∧ Fetches (ready { base with sp := 15 } 0x2300) (.call 0x300) ∧
      (ready { base with sp := 15 } 0x2300).sp = 15) ∧
    ((ready base 0x00EE).fault = none ∧ Fetches (ready base 0x00EE) .ret ∧ (ready base 0x00EE).sp = 0) :=
  ⟨⟨rfl, ⟨0x2300, by decide, by decide⟩, rfl⟩, ⟨rfl, ⟨0x00EE, by decide, by decide⟩, rfl⟩⟩

theorem witness_CallThenRetReturns : ∃ t, exec (.call 0x208) { base with sp := 14 } = .next t := ⟨_, rfl⟩

/-- The bound x ≠ F of the flagged results, and a state on each side of each flag. -/
theorem witness_AddRegSetsCarry :
    (14 : Reg) ≠ 15 ∧ 255 < (readV (writeV (writeV base 0 0xFF) 1 1) 0).toNat + (readV (writeV (writeV base 0 0xFF) 1 1) 1).toNat := by
  decide
theorem witness_SubtractionsSetNotBorrow :
    (14 : Reg) ≠ 15 ∧ (readV (writeV base 1 1) 0).toNat < (readV (writeV base 1 1) 1).toNat := by decide
theorem witness_ShiftsSetBitShiftedOut : (14 : Reg) ≠ 15 := by decide

theorem witness_RndMasksTheDraw : (withKeys [] 0xA7).inputs = [⟨pressed [], 0xA7⟩] := rfl

theorem witness_RndKeepsBitsOutsideMaskZero : (0x0F : Byte).getLsbD 4 = false := by decide

/-- The last index whose three bytes are in memory. -/
theorem witness_LdBStoresDecimalDigits :
    ({ base with i := 0xFFD } : State).mem.wf = true ∧ ({ base with i := 0xFFD } : State).i.toNat + 2 < 0x1000 := by
  decide

/-- The last index for sixteen bytes, of a store and of a load. -/
theorem witness_StoreBlockWritesRegisters :
    ({ base with i := 0xFF0 } : State).mem.wf = true ∧
      ({ base with i := 0xFF0 } : State).i.toNat + (15 : Reg).val < 0x1000 := by decide
theorem witness_LoadBlockReadsMemory : ({ base with i := 0xFF0 } : State).i.toNat + (15 : Reg).val < 0x1000 := by decide

/-- The first index of each form that leaves memory. -/
theorem witness_BlockAccessesOutsideMemoryFault :
    0x1000 ≤ ({ base with i := 0xFFE } : State).i.toNat + 2 ∧
      0x1000 ≤ ({ base with i := 0xFF1 } : State).i.toNat + (15 : Reg).val ∧ 0 < (15 : Fin 16).val ∧
      0x1000 ≤ ({ base with i := 0xFF2 } : State).i.toNat + (15 : Fin 16).val - 1 := by decide

theorem witness_StoreThenLoadRestoresRegisters :
    base.mem.wf = true ∧ ∃ t u, exec (.ldMemStore 1) { base with i := 0x400 } = .next t ∧ u = writeV t 0 9 ∧
      u.mem = t.mem ∧ u.i = ({ base with i := 0x400 } : State).i :=
  ⟨rfl, _, _, rfl, rfl, rfl, rfl⟩

/-- No bytes at any index, and the last index for fifteen bytes. -/
theorem witness_DrwInvertsCoveredPixels :
    ((0 : Fin 16).val = 0 ∨ ({ base with i := 0xFFFF } : State).i.toNat + (0 : Fin 16).val ≤ 0x1000) ∧
      ((15 : Fin 16).val = 0 ∨ ({ base with i := 0xFF1 } : State).i.toNat + (15 : Fin 16).val ≤ 0x1000) := by decide

/-- Its collision clauses: the byte 0xF0 of the font covers (0, 0) of a sprite at (0, 0) with its bit 7, and not (4, 0), on
an empty screen and on one with that pixel on. -/
theorem witness_DrwInvertsCoveredPixels_collision :
    (base.mem.read (0x050 + (0 - 0))).getLsbD (7 - (0 - 0)) = true ∧
      (base.mem.read (0x050 + (0 - 0))).getLsbD (7 - (4 - 0)) = false ∧ pixel blankScreen 0 0 = false ∧
      pixel (setPixel blankScreen 0 0 true) 0 0 = true := by decide

theorem witness_DrawingTwiceRestoresScreen :
    (0 : Reg) ≠ 15 ∧ (1 : Reg) ≠ 15 ∧ ∃ t u, exec (.drw 0 1 1) { base with i := 0x050 } = .next t ∧
      exec (.drw 0 1 1) t = .next u ∧ pixel base.fb 0 0 = false ∧ pixel t.fb 0 0 = true :=
  ⟨by decide, by decide, _, _, rfl, rfl, by decide, by decide⟩

/-- The last key number, pressed and not pressed, and the first number that is no key. -/
theorem witness_KeySkipsTestTheSnapshot :
    (writeV (withKeys [15] 0) 5 15).inputs = [⟨pressed [15], 0⟩] ∧
      (readV (writeV (withKeys [15] 0) 5 15) 5).toNat = (15 : Fin 16).val ∧ (pressed [15])[(15 : Fin 16)] = true ∧
      (pressed [])[(15 : Fin 16)] = false ∧ 16 ≤ (readV (writeV base 5 16) 5).toNat := by decide

theorem witness_KeyInstructionsComplete : (readV (writeV base 5 15) 5).toNat < 16 := by decide

/-- Both cases of its clause on Fx0A: no key, and a key pressed. -/
theorem witness_KeyInstructionsComplete_ldK :
    (∀ j : Fin 16, (stepInput (withKeys [] 0)).keys[j] = false) ∧ (stepInput (withKeys [15] 0)).keys[(15 : Fin 16)] = true := by
  decide

/-- The highest key alone. -/
theorem witness_LdKStoresLowestKey :
    (withKeys [15] 0).inputs = [⟨pressed [15], 0⟩] ∧ (pressed [15])[(15 : Fin 16)] = true ∧
      ∀ j : Fin 16, j < 15 → (pressed [15])[j] = false := by decide

theorem witness_LdKWaitsWithPcUnchanged :
    (ready { withKeys [] 0 with pc := 0xFFE } 0xF30A).fault = none ∧
      Fetches (ready { withKeys [] 0 with pc := 0xFFE } 0xF30A) (.ldK 3) ∧
      (ready { withKeys [] 0 with pc := 0xFFE } 0xF30A).inputs = [⟨pressed [], 0⟩] ∧
      ∀ j : Fin 16, (pressed [])[j] = false :=
  ⟨rfl, ⟨0xF30A, by decide, by decide⟩, rfl, by decide⟩

theorem witness_TimerRegisterMoves :
    (ready base 0xF107).fault = none ∧ Fetches (ready base 0xF107) (.ldVxDT 1) :=
  ⟨rfl, 0xF107, by decide, by decide⟩

theorem witness_OnlyDisplayInstructionsTouchScreen :
    ∃ t, exec .cls base = .next t ∧ ¬ KeepsDisplay base t :=
  ⟨_, rfl, fun h => nomatch h.2⟩

theorem witness_OnlyBlockStoresChangeMemory :
    base.mem.wf = true ∧
      (∃ t, exec (.ldB 0) (writeV { base with i := 0x400 } 0 255) = .next t ∧ t.mem.read 0x402 ≠ 0) ∧
      ∃ t, exec (.ldMemStore 1) (writeV { base with i := 0x400 } 1 7) = .next t ∧ t.mem.read 0x401 ≠ 0 :=
  ⟨rfl, ⟨_, rfl, by decide⟩, _, rfl, by decide⟩

theorem witness_SpecialStateHasItsWritersOnly :
    (∃ t, exec (.call 0x208) base = .next t ∧ t.sp ≠ base.sp) ∧ (∃ t, exec (.ldI 0x22A) base = .next t ∧ t.i ≠ base.i) ∧
      (∃ t, exec (.ldDTVx 0) (writeV base 0 5) = .next t ∧ t.dt ≠ base.dt) ∧
      ∃ t, exec (.ldSTVx 0) (writeV base 0 5) = .next t ∧ t.st ≠ base.st :=
  ⟨⟨_, rfl, by decide⟩, ⟨_, rfl, by decide⟩, ⟨_, rfl, by decide⟩, _, rfl, by decide⟩

/-- A jump, and an Fx0A that waits. -/
theorem witness_PcHasItsWritersOnly :
    (∃ t, exec (.jp 0x234) base = .next t ∧ t.pc ≠ base.pc) ∧
      ∃ t, exec (.ldK 3) (withKeys [] 0) = .next t ∧ t.pc ≠ (withKeys [] 0).pc :=
  ⟨⟨_, rfl, by decide⟩, _, rfl, by decide⟩

/-- The jump to itself at the program base. -/
theorem witness_ParkedStepChangesOnlyTimers : Parked (ready base 0x1200) := ⟨rfl, 0x200, by decide, by decide⟩

end Sys2Proof.Tests
end

section
/-! PROOFS. The execution cycle (spec/40_execution_cycle.md): which part of the host's call a step depends on. -/

namespace Sys2Proof.Machine

/-! ## The same state before other host calls -/

/-- `s` with `l` as the host's calls to come. -/
def withInputs (s : State) (l : List StepInput) : State := { s with inputs := l }

/-- The same answer, a next state having `l` as the host's calls to come. -/
def Result.withInputs (l : List StepInput) : Result → Result
  | .next t => .next (Machine.withInputs t l)
  | .fault f => .fault f
  | .refused q => .refused q

/-- Where an operation's answer has the calls exchanged, so has the meaning it is made into. -/
theorem finish_map_withInputs (l : List StepInput) (r : Except Fault State) :
    finish (r.map (withInputs · l)) = Result.withInputs l (finish r) := by
  cases r <;> rfl

theorem popReturn_withInputs (s : State) (l : List StepInput) :
    popReturn (withInputs s l) = (popReturn s).map (withInputs · l) := by
  by_cases h : s.sp = 0 <;> simp [popReturn, withInputs, h, Except.map, fetchPC]

theorem pushReturn_withInputs (s : State) (l : List StepInput) :
    pushReturn (withInputs s l) = (pushReturn s).map (withInputs · l) := by
  by_cases h : s.sp = 15 <;> simp [pushReturn, withInputs, h, Except.map, fetchPC]

theorem writeFromI_withInputs (s : State) (bs : List Byte) (l : List StepInput) :
    writeFromI (withInputs s l) bs = (writeFromI s bs).map (withInputs · l) := by
  unfold writeFromI withInputs
  cases writeBlock s.mem s.i.toNat bs <;> rfl

theorem exec_call_withInputs (nnn : BitVec 12) (s : State) (l : List StepInput) :
    exec (.call nnn) (withInputs s l) = Result.withInputs l (exec (.call nnn) s) := by
  simp only [exec, execCall, pushReturn_withInputs]
  cases pushReturn s <;> rfl

theorem exec_ldMemLoad_withInputs (x : Reg) (s : State) (l : List StepInput) :
    exec (.ldMemLoad x) (withInputs s l) = Result.withInputs l (exec (.ldMemLoad x) s) := by
  have hread : readFromI (withInputs s l) (x.val + 1) = readFromI s (x.val + 1) := rfl
  simp only [exec, execLdMemLoad, hread]
  cases readFromI s (x.val + 1) <;> rfl

theorem exec_drw_withInputs (x y : Reg) (n : Fin 16) (s : State) (l : List StepInput) :
    exec (.drw x y n) (withInputs s l) = Result.withInputs l (exec (.drw x y n) s) := by
  have hread : readFromI (withInputs s l) n.val = readFromI s n.val := rfl
  simp only [exec, execDrw, hread]
  cases readFromI s n.val <;> rfl

/-! ## The instructions that read the host's call -/

/-- The key snapshot is read by `Ex9E`, `ExA1` and `Fx0A` (R235). -/
def ReadsKeys (i : Instr) : Prop := ∃ x, i = .skp x ∨ i = .sknp x ∨ i = .ldK x

/-- The random byte is read by `Cxkk` (R109). -/
def ReadsRnd (i : Instr) : Prop := ∃ x kk, i = .rnd x kk

section
variable (s : State) (l : List StepInput) (hk : (stepInput (withInputs s l)).keys = (stepInput s).keys)
include hk

theorem keyDown_withInputs (k : Nat) : keyDown (withInputs s l) k = keyDown s k := by
  simp only [keyDown, hk]

theorem lowestKey_withInputs : lowestKey (withInputs s l) = lowestKey s := by
  simp only [lowestKey, funext (keyDown_withInputs s l hk)]

theorem exec_skp_withInputs (x : Reg) :
    exec (.skp x) (withInputs s l) = Result.withInputs l (exec (.skp x) s) := by
  have hkey : keyNumber (withInputs s l) x = keyNumber s x := rfl
  simp only [exec, execSkp, hkey, keyDown_withInputs s l hk]
  cases keyNumber s x <;> rfl

theorem exec_sknp_withInputs (x : Reg) :
    exec (.sknp x) (withInputs s l) = Result.withInputs l (exec (.sknp x) s) := by
  have hkey : keyNumber (withInputs s l) x = keyNumber s x := rfl
  simp only [exec, execSknp, hkey, keyDown_withInputs s l hk]
  cases keyNumber s x <;> rfl

theorem exec_ldK_withInputs (x : Reg) :
    exec (.ldK x) (withInputs s l) = Result.withInputs l (exec (.ldK x) s) := by
  simp only [exec, execLdK, lowestKey_withInputs s l hk]
  cases lowestKey s <;> rfl

end

theorem exec_rnd_withInputs (x : Reg) (kk : Byte) (s : State) (l : List StepInput)
    (hr : (stepInput (withInputs s l)).rnd = (stepInput s).rnd) :
    exec (.rnd x kk) (withInputs s l) = Result.withInputs l (exec (.rnd x kk) s) := by
  simp only [exec, execRnd, hr]
  rfl

/-- Other host calls change nothing in what an instruction does, as long as the snapshot is the same where the
instruction reads it, and the random byte where it reads that. -/
theorem exec_withInputs (i : Instr) (s : State) (l : List StepInput)
    (hk : ReadsKeys i → (stepInput (withInputs s l)).keys = (stepInput s).keys)
    (hr : ReadsRnd i → (stepInput (withInputs s l)).rnd = (stepInput s).rnd) :
    exec i (withInputs s l) = Result.withInputs l (exec i s) := by
  cases i with
  | skp x => exact exec_skp_withInputs s l (hk ⟨x, .inl rfl⟩) x
  | sknp x => exact exec_sknp_withInputs s l (hk ⟨x, .inr (.inl rfl)⟩) x
  | ldK x => exact exec_ldK_withInputs s l (hk ⟨x, .inr (.inr rfl)⟩) x
  | rnd x kk => exact exec_rnd_withInputs x kk s l (hr ⟨x, kk, rfl⟩)
  | ret => exact (congrArg finish (popReturn_withInputs s l)).trans (finish_map_withInputs l _)
  | call nnn => exact exec_call_withInputs nnn s l
  | ldB x => exact (congrArg finish (writeFromI_withInputs s _ l)).trans (finish_map_withInputs l _)
  | ldMemStore x => exact (congrArg finish (writeFromI_withInputs s _ l)).trans (finish_map_withInputs l _)
  | ldMemLoad x => exact exec_ldMemLoad_withInputs x s l
  | drw x y n => exact exec_drw_withInputs x y n s l
  | _ => rfl

/-! ## The step -/

/-- A faulted core only reports (R108). -/
theorem step_of_faulted (s : State) (f : Fault) (hf : s.fault = some f) :
    step s = .next (closeStep (clearOutputs s)) := by
  simp only [step, stepCore, hf]

/-- A fetch that raises a fault ends the step in the faulted state (R101, R231). -/
theorem step_of_fetch_error (s : State) (f : Fault) (hf : s.fault = none)
    (hw : fetchWord s.mem s.pc.toNat = .error f) : step s = .next (endInFault s f) := by
  simp only [step, stepCore, hf, hw]

/-- The call that a step uses up leaves no trace in the closed state (R100; log 1). -/
theorem closeStep_withInputs (s : State) (l : List StepInput) (h : l.tail = s.inputs.tail) :
    closeStep (withInputs s l) = closeStep s := by
  simp only [closeStep, withInputs, h]

/-- What concludes a step depends on the host's calls after this one only. -/
theorem concludeStep_withInputs (s : State) (l : List StepInput) (r : Result) (h : l.tail = s.inputs.tail)
    (hr : ∀ t, r = .next t → t.inputs = s.inputs) :
    concludeStep (withInputs s l) (Result.withInputs l r) = concludeStep s r := by
  cases r with
  | next t => exact congrArg _ (closeStep_withInputs t l (by rw [h, hr t rfl]))
  | fault f => exact congrArg _ (closeStep_withInputs (enterFault (clearOutputs s) f) l h)
  | refused q => rfl

/-- `exec_withInputs` for a word: an UNKNOWN word reads no input (R106). -/
theorem executeWord_withInputs (w : Word) (s : State) (l : List StepInput)
    (hk : ∀ i, decodeWord w = .ok i → ReadsKeys i → (stepInput (withInputs s l)).keys = (stepInput s).keys)
    (hr : ∀ i, decodeWord w = .ok i → ReadsRnd i → (stepInput (withInputs s l)).rnd = (stepInput s).rnd) :
    executeWord w (withInputs s l) = Result.withInputs l (executeWord w s) := by
  unfold executeWord
  cases hd : decodeWord w with
  | ok i => exact exec_withInputs i s l (hk i hd) (hr i hd)
  | error e => rfl

/-- Another call of the host, before the same calls to come, gives the same outcome of a step, as long as the snapshot
is the same where the fetched instruction reads it, and the random byte where it reads that (R109, R235). -/
theorem step_withInputs (s : State) (l : List StepInput) (h : l.tail = s.inputs.tail)
    (hk : ∀ i, Fetches s i → ReadsKeys i → (stepInput (withInputs s l)).keys = (stepInput s).keys)
    (hr : ∀ i, Fetches s i → ReadsRnd i → (stepInput (withInputs s l)).rnd = (stepInput s).rnd) :
    step (withInputs s l) = step s := by
  cases hf : s.fault with
  | some f =>
    rw [step_of_faulted s f hf, step_of_faulted (withInputs s l) f hf]
    exact congrArg _ (closeStep_withInputs (clearOutputs s) l h)
  | none =>
    cases hw : fetchWord s.mem s.pc.toNat with
    | error f =>
      rw [step_of_fetch_error s f hf hw, step_of_fetch_error (withInputs s l) f hf hw]
      exact congrArg _ (closeStep_withInputs (enterFault (clearOutputs s) f) l h)
    | ok w =>
      have hexec : executeWord w (advancePc (startStep (withInputs s l))) =
          Result.withInputs l (executeWord w (advancePc (startStep s))) :=
        executeWord_withInputs w (advancePc (startStep s)) l (fun i hd => hk i ⟨w, hw, hd⟩)
          (fun i hd => hr i ⟨w, hw, hd⟩)
      rw [step_of_fetch s w hf hw, step_of_fetch (withInputs s l) w hf hw, hexec]
      refine concludeStep_withInputs s l _ h fun t ht => ?_
      obtain ⟨-, -, -, hinputs, -, -⟩ := executeWord_keeps w _ t ht
      exact hinputs

/-- Settles O12: the two calls agree in the snapshot and in the calls to come, so only a fetched `Cxkk` could tell
them apart. -/
theorem randomByteReachesOnlyRnd : Obligations.RandomByteReachesOnlyRnd := by
  unfold Obligations.RandomByteReachesOnlyRnd
  intro s k r r' rest hno
  refine step_withInputs { s with inputs := ⟨k, r'⟩ :: rest } (⟨k, r⟩ :: rest) rfl (fun _ _ _ => rfl) ?_
  rintro i hfetch ⟨x, kk, rfl⟩
  exact absurd hfetch (hno x kk)

end Sys2Proof.Machine
end

section
/-! PROOFS. Loads and the ALU (spec/42_alu.md): immediates, and the addition of two registers. -/

namespace Sys2Proof.Machine

/-! ## Words of groups 6, 7 and 8 -/

theorem decodeWord_format6 (x : Reg) (kk : Byte) : decodeWord (formatXKK 0x6 x kk) = .ok (.ldImm x kk) := by
  simp [decodeWord]

theorem decodeWord_format7 (x : Reg) (kk : Byte) : decodeWord (formatXKK 0x7 x kk) = .ok (.addImm x kk) := by
  simp [decodeWord]

/-- A word with first nibble 8 is left to group 8, whatever its last nibble (R75). -/
theorem decodeWord_format8 (x y : Reg) (n : BitVec 4) :
    decodeWord (formatXYN 0x8 x y n) = decodeGroup8 (formatXYN 0x8 x y n) := by
  simp [decodeWord]

theorem decodeWord_format8_add (x y : Reg) : decodeWord (formatXYN 0x8 x y 0x4) = .ok (.addReg x y) := by
  rw [decodeWord_format8]
  simp [decodeGroup8]

/-! ## What the three instructions answer -/

theorem exec_ldImm (x : Reg) (kk : Byte) (s : State) : exec (.ldImm x kk) s = .next (writeV s x kk) := rfl

theorem exec_addImm (x : Reg) (kk : Byte) (s : State) :
    exec (.addImm x kk) s = .next (writeV s x (readV s x + kk)) := rfl

theorem exec_addReg (x y : Reg) (s : State) :
    exec (.addReg x y) s =
      .next (writeWithFlag s x (readV s x + readV s y) (carryOut (readV s x) (readV s y))) := rfl

/-! ## Register writes -/

/-- Where nothing but the register file is exchanged, the registers are all there is to compare. -/
theorem onlyRegs_of_keepsRegs {written : List Reg} {s : State} {v : Vector Byte 16}
    (hregs : KeepsRegs written s { s with v := v }) : OnlyRegs written s { s with v := v } :=
  ⟨hregs, rfl, rfl, fun _ => rfl, ⟨rfl, rfl⟩, ⟨rfl, rfl, rfl⟩, ⟨rfl, rfl⟩, rfl, rfl, rfl, rfl, rfl, rfl⟩

/-- A register write changes that register only (R12). -/
theorem onlyRegs_writeV (s : State) (x : Reg) (b : Byte) : OnlyRegs [x] s (writeV s x b) := by
  have hregs : KeepsRegs [x] s (writeV s x b) := by
    intro r hr
    rw [readV_writeV, if_neg (List.ne_of_not_mem_cons hr)]
  exact onlyRegs_of_keepsRegs hregs

/-- A flagged write changes the destination and VF only (R22). -/
theorem onlyRegs_writeWithFlag (s : State) (x : Reg) (b : Byte) (c : Bool) :
    OnlyRegs [x, regF] s (writeWithFlag s x b c) := by
  have hregs : KeepsRegs [x, regF] s (writeWithFlag s x b c) := by
    intro r hr
    obtain ⟨hx, hF⟩ : r ≠ x ∧ r ≠ regF := by simpa using hr
    rw [readV_writeWithFlag, if_neg hF, if_neg hx]
  exact onlyRegs_of_keepsRegs hregs

theorem readV_writeV_same (s : State) (x : Reg) (b : Byte) : readV (writeV s x b) x = b := by
  rw [readV_writeV, if_pos rfl]

/-- VF holds the flag, also where it is the destination (R22). -/
theorem readV_writeWithFlag_regF (s : State) (x : Reg) (b : Byte) (c : Bool) :
    readV (writeWithFlag s x b c) regF = flagByte c := by
  rw [readV_writeWithFlag, if_pos rfl]

/-- A destination other than VF keeps the result (R22). -/
theorem readV_writeWithFlag_same (s : State) (x : Reg) (b : Byte) (c : Bool) (hx : x ≠ regF) :
    readV (writeWithFlag s x b c) x = b := by
  rw [readV_writeWithFlag, if_neg hx, if_pos rfl]

/-- The carry as VF holds it (R146). -/
theorem flagByte_carryOut (a b : Byte) :
    flagByte (carryOut a b) = if 255 < a.toNat + b.toNat then 1 else 0 := by
  simp only [flagByte, carryOut, decide_eq_true_eq]

/-! ## The obligations -/

/-- Settles O32: the word decodes by its first nibble, and the meaning is one register write. -/
theorem ldImmLoadsByte : Obligations.LdImmLoadsByte := by
  unfold Obligations.LdImmLoadsByte
  intro x kk s
  exact ⟨decodeWord_format6 x kk, _, exec_ldImm x kk s, readV_writeV_same s x kk, onlyRegs_writeV s x kk⟩

/-- Settles O33: the meaning is one register write, of a sum that wraps as 8-bit words do. -/
theorem addImmWrapsWithoutFlag : Obligations.AddImmWrapsWithoutFlag := by
  unfold Obligations.AddImmWrapsWithoutFlag
  intro x kk s
  refine ⟨decodeWord_format7 x kk, _, exec_addImm x kk s, ?_, onlyRegs_writeV s x _⟩
  rw [readV_writeV_same, BitVec.toNat_add]

/-- Settles O35: sum and carry are computed from the old registers, so y = F needs no case, and the flag is written
last, so VF holds it for x = F too. -/
theorem addRegSetsCarry : Obligations.AddRegSetsCarry := by
  unfold Obligations.AddRegSetsCarry
  intro x y s
  refine ⟨decodeWord_format8_add x y, _, exec_addReg x y s, ?_, ?_, onlyRegs_writeWithFlag s x _ _⟩
  · rw [readV_writeWithFlag_regF, flagByte_carryOut]
  · intro hx
    rw [readV_writeWithFlag_same s x _ _ hx, BitVec.toNat_add]

end Sys2Proof.Machine
end

section
/-! PROOFS. The index register (spec/43_index_memory.md): the load of an address. -/

namespace Sys2Proof.Machine

/-- The word's first nibble alone selects the load, and its other twelve bits are the address (R75). -/
theorem decodeWord_formatA (nnn : BitVec 12) : decodeWord (formatNNN 0xA nnn) = .ok (.ldI nnn) := by
  simp [decodeWord]

theorem exec_ldI (nnn : BitVec 12) (s : State) : exec (.ldI nnn) s = .next (setI s (zextAddress nnn)) := rfl

/-- Zero extension keeps the number (R72). -/
theorem zextAddress_toNat (nnn : BitVec 12) : (zextAddress nnn).toNat = nnn.toNat :=
  BitVec.toNat_setWidth_of_le (by decide)

/-- A write to I changes I only. -/
theorem onlyIndexAndRegs_setI (s : State) (a : Word) : OnlyIndexAndRegs [] s (setI s a) :=
  ⟨fun r _ => readV_setI s a r, rfl, fun _ => rfl, ⟨rfl, rfl⟩, ⟨rfl, rfl, rfl⟩, ⟨rfl, rfl⟩, rfl, rfl, rfl, rfl, rfl, rfl⟩

/-- Settles O40: the meaning is one write to I, of the address extended with zeros. -/
theorem ldILoadsAddress : Obligations.LdILoadsAddress := by
  unfold Obligations.LdILoadsAddress
  intro nnn s
  refine ⟨decodeWord_formatA nnn, _, exec_ldI nnn s, ?_, onlyIndexAndRegs_setI s (zextAddress nnn)⟩
  rw [setI_i, zextAddress_toNat]

end Sys2Proof.Machine
end

section
/-! PROOFS. The display (spec/44_display.md): the clear screen. -/

namespace Sys2Proof.Machine

/-- Group 0 matches the complete word of the clear (R75). -/
theorem decodeWord_cls : decodeWord 0x00E0 = .ok .cls := rfl

theorem exec_cls (s : State) : exec .cls s = .next (setScreen s blankScreen) := rfl

/-- A write of the framebuffer changes the display only (R105). -/
theorem onlyDisplayAndRegs_setScreen (s : State) (fb : Screen) : OnlyDisplayAndRegs [] s (setScreen s fb) :=
  ⟨fun r _ => readV_setScreen s fb r, rfl, rfl, fun _ => rfl, ⟨rfl, rfl⟩, ⟨rfl, rfl, rfl⟩, rfl, rfl, rfl, rfl, rfl, rfl⟩

/-- Settles O48: the meaning is one write of the blank screen, which sets the flag whatever the screen was. -/
theorem clsClearsAndSignals : Obligations.ClsClearsAndSignals := by
  unfold Obligations.ClsClearsAndSignals
  refine ⟨decodeWord_cls, fun s => ⟨_, exec_cls s, ?_, ?_, onlyDisplayAndRegs_setScreen s blankScreen⟩⟩
  · intro px py
    rw [setScreen_fb, pixel_blankScreen]
  · exact setScreen_displayChanged s blankScreen

end Sys2Proof.Machine
end

section
/-! PROOFS. The timer policy (spec/60_exceptions.md R240): its arithmetic, its frame, and that a step runs it once. -/

namespace Sys2Proof.Machine

/-! ## The policy's arithmetic -/

/-- The accumulator reaches zero exactly where no more than one period is left in it: the subtraction saturates
(R240). -/
theorem timerDue_iff (s : State) : timerDue s = true ↔ s.dtacc ≤ s.periodNs := by
  rw [timerDue, beq_iff_eq, Nat.sub_eq_zero_iff_le]

/-- Where the policy is not due a timer keeps its value (R240). -/
theorem countDown_false (b : Byte) : countDown false b = b :=
  BitVec.eq_of_toNat_eq (countDown_toNat false b)

/-- The due policy counts both timers down and starts the accumulator again (R240). -/
theorem timerPolicy_of_due (s : State) (h : s.dtacc ≤ s.periodNs) :
    (timerPolicy s).dtacc = timerPeriodNs ∧ (timerPolicy s).dt.toNat = s.dt.toNat - 1 ∧
      (timerPolicy s).st.toNat = s.st.toNat - 1 := by
  simp [(timerDue_iff s).2 h, countDown_toNat]

/-- The policy that is not due takes one period off the accumulator and leaves both timers (R240). -/
theorem timerPolicy_of_not_due (s : State) (h : s.periodNs < s.dtacc) :
    (timerPolicy s).dtacc + s.periodNs = s.dtacc ∧ (timerPolicy s).dt = s.dt ∧ (timerPolicy s).st = s.st := by
  have hdue : timerDue s = false := by
    rw [Bool.eq_false_iff, ne_eq, timerDue_iff]
    exact Nat.not_le_of_lt h
  simp [hdue, countDown_false, Nat.sub_add_cancel h.le]

/-! ## The writers of the timers -/

/-- An instruction that completes keeps DT unless it is `Fx15`, and ST unless it is `Fx18` (R214, R215). -/
theorem exec_keeps_timers (i : Instr) (s t : State) (h : exec i s = .next t) :
    (t.dt = s.dt ∨ ∃ x, i = .ldDTVx x) ∧ (t.st = s.st ∨ ∃ x, i = .ldSTVx x) := by
  cases i with
  | ldDTVx x =>
    cases h
    exact ⟨.inr ⟨x, rfl⟩, .inl rfl⟩
  | ldSTVx x =>
    cases h
    exact ⟨.inl rfl, .inr ⟨x, rfl⟩⟩
  | ret => obtain ⟨-, rfl⟩ := popReturn_ok s t ((finish_eq_next _ _).1 h); exact ⟨.inl rfl, .inl rfl⟩
  | call nnn => obtain ⟨-, rfl⟩ := exec_call_ok nnn s t h; exact ⟨.inl rfl, .inl rfl⟩
  | ldB x => obtain ⟨m, -, rfl⟩ := writeFromI_ok s t _ ((finish_eq_next _ _).1 h); exact ⟨.inl rfl, .inl rfl⟩
  | ldMemStore x => obtain ⟨m, -, rfl⟩ := writeFromI_ok s t _ ((finish_eq_next _ _).1 h); exact ⟨.inl rfl, .inl rfl⟩
  | ldMemLoad x => obtain ⟨bs, -, rfl⟩ := exec_ldMemLoad_ok x s t h; exact ⟨.inl rfl, .inl rfl⟩
  | drw x y n => obtain ⟨rows, -, rfl⟩ := exec_drw_ok x y n s t h; exact ⟨.inl rfl, .inl rfl⟩
  | skp x => obtain ⟨-, rfl⟩ := exec_skp_ok x s t h; exact ⟨.inl rfl, .inl rfl⟩
  | sknp x => obtain ⟨-, rfl⟩ := exec_sknp_ok x s t h; exact ⟨.inl rfl, .inl rfl⟩
  | ldK x => rcases exec_ldK_ok x s t h with ⟨-, rfl⟩ | ⟨k, -, rfl⟩ <;> exact ⟨.inl rfl, .inl rfl⟩
  | _ =>
    cases h
    exact ⟨.inl rfl, .inl rfl⟩

/-- `exec_keeps_timers` for a word: an UNKNOWN word writes neither timer (R106). -/
theorem executeWord_keeps_timers (w : Word) (s t : State) (h : executeWord w s = .next t) :
    (t.dt = s.dt ∨ ∃ x, decodeWord w = .ok (.ldDTVx x)) ∧ (t.st = s.st ∨ ∃ x, decodeWord w = .ok (.ldSTVx x)) := by
  unfold executeWord at h
  cases hd : decodeWord w with
  | ok i =>
    rw [hd] at h
    simpa only [Except.ok.injEq] using exec_keeps_timers i s t h
  | error e =>
    rw [hd] at h
    cases h
    exact ⟨.inl rfl, .inl rfl⟩

/-! ## The step -/

/-- A step that ends without a fault ran the word it fetched and closed (R100). -/
theorem step_without_fault (s t : State) (h : step s = .next t) (ht : t.fault = none) :
    ∃ w u, fetchWord s.mem s.pc.toNat = .ok w ∧ executeWord w (advancePc (startStep s)) = .next u ∧
      t = closeStep u := by
  obtain ⟨f, hf, rfl⟩ | ⟨-, f, rfl⟩ | ⟨-, hrun⟩ := step_cases s t h
  · exact absurd (hf.symm.trans ht) (Option.some_ne_none f)
  · exact absurd ht (Option.some_ne_none f)
  · exact hrun

/-- The timers and the accumulator a step without a fault ends with are those of one run of the policy, but for the
timer the fetched instruction writes (R100, R240). -/
theorem step_runs_timerPolicy (s t : State) (h : step s = .next t) (ht : t.fault = none) :
    t.dtacc = (timerPolicy s).dtacc ∧
      (t.dt = (timerPolicy s).dt ∨ ∃ x, Fetches s (.ldDTVx x)) ∧
      (t.st = (timerPolicy s).st ∨ ∃ x, Fetches s (.ldSTVx x)) := by
  obtain ⟨w, u, hw, hu, rfl⟩ := step_without_fault s t h ht
  obtain ⟨hacc, -⟩ := executeWord_keeps w _ u hu
  obtain ⟨hdt, hst⟩ := executeWord_keeps_timers w _ u hu
  exact ⟨hacc, hdt.imp_right fun ⟨x, hx⟩ => ⟨x, w, hw, hx⟩, hst.imp_right fun ⟨x, hx⟩ => ⟨x, w, hw, hx⟩⟩

/-- Settles O23: the policy by whether it is due, its frame field by field, and a step without a fault is one run of it
followed by an instruction that writes no timer but its own. -/
theorem timerPolicyCountsDown : Obligations.TimerPolicyCountsDown := by
  unfold Obligations.TimerPolicyCountsDown
  refine ⟨fun s => ⟨timerPolicy_of_due s, timerPolicy_of_not_due s, ?_⟩, fun s t _ => step_runs_timerPolicy s t⟩
  exact ⟨timerPolicy_pc s, timerPolicy_i s, fun r _ => readV_timerPolicy s r, fun _ => rfl, ⟨rfl, rfl⟩, ⟨rfl, rfl⟩,
    rfl, rfl, rfl, rfl, rfl, rfl⟩

end Sys2Proof.Machine
end

section
/-! PROOFS. Encoding (spec/30_encoding.md): decoder and encoder undo each other, and agree with the opcode table. -/

namespace Sys2Proof

open Machine

/-! ## Decoding the word of an instruction -/

/-- A word with first nibble F is left to group F, whatever its last byte (R75). -/
theorem decodeWord_formatF (x : Reg) (kk : Byte) :
    decodeWord (formatXKK 0xF x kk) = decodeGroupF (formatXKK 0xF x kk) := by
  simp [decodeWord]

/-- Decoding the word of an instruction gives the instruction: its formats' fields read back (R74, R76). -/
theorem decodeWord_encode (i : Instr) : decodeWord (encode i) = .ok i := by
  cases i with
  | cls | ret => rfl
  | jp nnn | call nnn | ldI nnn | jpV0 nnn => simp [encode, decodeWord]
  | seImm x kk | sneImm x kk | ldImm x kk | addImm x kk | rnd x kk => simp [encode, decodeWord]
  | seReg x y | sneReg x y | drw x y n => simp [encode, decodeWord]
  | ldReg x y | orReg x y | andReg x y | xorReg x y | addReg x y | subReg x y | shr x y | subnReg x y | shl x y =>
    rw [encode, decodeWord_format8]
    simp [decodeGroup8]
  | skp x | sknp x => simp [encode, decodeWord, decodeGroupE]
  | ldVxDT x | ldK x | ldDTVx x | ldSTVx x | addI x | ldF x | ldB x | ldMemStore x | ldMemLoad x =>
    rw [encode, decodeWord_formatF]
    simp [decodeGroupF]

/-- Settles O1: the word by its formats, and the bytes because they join to the word. -/
theorem decodeOfEncodeIsIdentity : Obligations.DecodeOfEncodeIsIdentity := by
  unfold Obligations.DecodeOfEncodeIsIdentity
  refine fun i => ⟨decodeWord_encode i, fun rest => ?_⟩
  rw [encodeBytes, List.cons_append, List.cons_append, List.nil_append, decode_cons_cons, joinBytes_highByte_lowByte,
    decodeWord_encode]

/-! ## A word is put together from its fields -/

theorem formatNNN_fields (w : Word) : formatNNN (wordN0 w) (wordNNN w) = w := by
  apply BitVec.eq_of_toNat_eq
  rw [formatNNN_toNat, wordN0_toNat, wordNNN_toNat]
  omega

theorem formatXKK_fields (w : Word) : formatXKK (wordN0 w) (wordX w) (wordKK w) = w := by
  apply BitVec.eq_of_toNat_eq
  rw [formatXKK_toNat, wordN0_toNat, wordX_val, wordKK_toNat]
  omega

theorem formatXYN_fields (w : Word) : formatXYN (wordN0 w) (wordX w) (wordY w) (nibble (wordN w)) = w := by
  apply BitVec.eq_of_toNat_eq
  rw [formatXYN_toNat, wordN0_toNat, wordX_val, wordY_val, nibble_toNat, wordN_val]
  omega

/-- The three formats' words with some of the fields given as constants, for a word that has these constants there. -/
theorem formatNNN_of_fields {w : Word} {n0 : BitVec 4} (h0 : (wordN0 w).toNat = n0.toNat) :
    formatNNN n0 (wordNNN w) = w := by
  rw [← BitVec.eq_of_toNat_eq h0, formatNNN_fields]

theorem formatXKK_of_fields {w : Word} {n0 : BitVec 4} {kk : Byte} (h0 : (wordN0 w).toNat = n0.toNat)
    (hkk : (wordKK w).toNat = kk.toNat) : formatXKK n0 (wordX w) kk = w := by
  rw [← BitVec.eq_of_toNat_eq h0, ← BitVec.eq_of_toNat_eq hkk, formatXKK_fields]

theorem formatXYN_of_fields {w : Word} {n0 n : BitVec 4} (h0 : (wordN0 w).toNat = n0.toNat)
    (hn : (wordN w).val = n.toNat) : formatXYN n0 (wordX w) (wordY w) n = w := by
  have hnib : nibble (wordN w) = n := BitVec.eq_of_toNat_eq ((nibble_toNat _).trans hn)
  rw [← BitVec.eq_of_toNat_eq h0, ← hnib, formatXYN_fields]

/-! ## Encoding a decoded word -/

theorem encode_of_decodeGroup0 {w : Word} {i : Instr} (h : decodeGroup0 w = .ok i) : encode i = w := by
  unfold decodeGroup0 at h
  split at h
  · cases h; exact Eq.symm ‹_›
  · split at h
    · cases h; exact Eq.symm ‹_›
    · cases h

theorem encode_of_decodeGroup8 {w : Word} {i : Instr} (h0 : (wordN0 w).toNat = 0x8) (h : decodeGroup8 w = .ok i) :
    encode i = w := by
  unfold decodeGroup8 at h
  split at h <;> cases h <;> exact formatXYN_of_fields h0 ‹_›

theorem encode_of_decodeGroupE {w : Word} {i : Instr} (h0 : (wordN0 w).toNat = 0xE) (h : decodeGroupE w = .ok i) :
    encode i = w := by
  unfold decodeGroupE at h
  split at h <;> cases h <;> exact formatXKK_of_fields h0 ‹_›

theorem encode_of_decodeGroupF {w : Word} {i : Instr} (h0 : (wordN0 w).toNat = 0xF) (h : decodeGroupF w = .ok i) :
    encode i = w := by
  unfold decodeGroupF at h
  split at h <;> cases h <;> exact formatXKK_of_fields h0 ‹_›

/-- Where no smaller first nibble matches it is F. -/
theorem wordN0_eq_F {w : Word} (h : ∀ k < 15, (wordN0 w).toNat ≠ k) : (wordN0 w).toNat = 0xF := by
  have hlt := (wordN0 w).isLt
  have hge : ¬ (wordN0 w).toNat < 15 := fun hk => h _ hk rfl
  omega

/-- Encoding undoes decoding; the cases are the first nibbles 0 to F, in order (R75). -/
theorem encode_of_decodeWord {w : Word} {i : Instr} (h : decodeWord w = .ok i) : encode i = w := by
  unfold decodeWord at h
  split at h
  case h_1 => exact encode_of_decodeGroup0 h
  case h_2 | h_3 | h_11 | h_12 => cases h; exact formatNNN_of_fields ‹_›
  case h_4 | h_5 | h_7 | h_8 | h_13 => cases h; exact formatXKK_of_fields ‹_› rfl
  case h_6 | h_10 =>
    split at h
    · cases h; exact formatXYN_of_fields ‹_› ‹_›
    · cases h
  case h_9 => exact encode_of_decodeGroup8 ‹_› h
  case h_14 => cases h; exact formatXYN_of_fields ‹_› (nibble_toNat _).symm
  case h_15 => exact encode_of_decodeGroupE ‹_› h
  case h_16 => exact encode_of_decodeGroupF (wordN0_eq_F fun k hk e => by interval_cases k <;> contradiction) h

/-- Settles O2, by the classes of first nibbles: in each the word is put together from the fields the decoder read. -/
theorem encodeOfDecodedWordIsTheWord : Obligations.EncodeOfDecodedWordIsTheWord := by
  unfold Obligations.EncodeOfDecodedWordIsTheWord
  exact fun w i => encode_of_decodeWord

/-! ## The UNKNOWN words -/

theorem decodeGroup0_error (w : Word) : (∃ e, decodeGroup0 w = .error e) ↔ w ≠ 0x00E0 ∧ w ≠ 0x00EE := by
  unfold decodeGroup0
  split
  · simp_all
  · split <;> simp_all

theorem decodeGroup8_error (w : Word) :
    (∃ e, decodeGroup8 w = .error e) ↔ (wordN w).val ∈ [0x8, 0x9, 0xA, 0xB, 0xC, 0xD, 0xF] := by
  have hlt := (wordN w).isLt
  unfold decodeGroup8
  generalize (wordN w).val = n at hlt
  interval_cases n <;> simp

theorem decodeGroupE_error (w : Word) :
    (∃ e, decodeGroupE w = .error e) ↔ (wordKK w).toNat ∉ [0x9E, 0xA1] := by
  unfold decodeGroupE
  split <;> simp_all

theorem decodeGroupF_error (w : Word) :
    (∃ e, decodeGroupF w = .error e) ↔
      (wordKK w).toNat ∉ [0x07, 0x0A, 0x15, 0x18, 0x1E, 0x29, 0x33, 0x55, 0x65] := by
  unfold decodeGroupF
  split <;> simp_all

/-- Groups 5 and 9 accept a word by its last nibble. -/
theorem ite_error (c : Prop) [Decidable c] (i : Instr) (r : Reject) :
    (∃ e, (if c then Except.ok i else Except.error r) = .error e) ↔ ¬ c := by
  split <;> simp_all

/-- Settles O4: a word's first nibble leaves one class of R78 at most, and each group rejects its own class. -/
theorem unknownWordsAreTheListedOnes : Obligations.UnknownWordsAreTheListedOnes := by
  unfold Obligations.UnknownWordsAreTheListedOnes
  intro w
  have hlt := (wordN0 w).isLt
  unfold decodeWord
  rw [← decodeGroup8_error, ← decodeGroupE_error, ← decodeGroupF_error, ← decodeGroup0_error]
  simp only [← BitVec.toNat_inj]
  generalize (wordN0 w).toNat = n0 at hlt
  interval_cases n0
  all_goals simp [ite_error]

/-! ## The opcode table -/

/-- Where the mask has a field's bits all set, a word that matches the row has the row's value in that field. -/
theorem extract_of_holds {r : OpcodeRow} {w : Word} (start len : Nat) (h : r.holds w = true)
    (hm : r.mask.extractLsb' start len = BitVec.allOnes len) :
    w.extractLsb' start len = r.pattern.extractLsb' start len := by
  rw [← beq_iff_eq.1 h, BitVec.extractLsb'_and, hm, BitVec.and_allOnes]

/-- The row decodes: every word that matches it decodes to its instruction. -/
def RowDecodes (r : OpcodeRow) : Prop :=
  ∀ w : Word, r.holds w = true → ∃ i, decodeWord w = .ok i ∧ i.mnemonic = r.mnemonic

theorem wordN0_of_holds {r : OpcodeRow} {w : Word} (h : r.holds w = true)
    (hm : r.mask.extractLsb' 12 4 = BitVec.allOnes 4) : wordN0 w = wordN0 r.pattern :=
  extract_of_holds 12 4 h hm

theorem wordN_of_holds {r : OpcodeRow} {w : Word} (h : r.holds w = true)
    (hm : r.mask.extractLsb' 0 4 = BitVec.allOnes 4) : wordN w = wordN r.pattern :=
  congrArg BitVec.toFin (extract_of_holds 0 4 h hm)

theorem wordKK_of_holds {r : OpcodeRow} {w : Word} (h : r.holds w = true)
    (hm : r.mask.extractLsb' 0 8 = BitVec.allOnes 8) : wordKK w = wordKK r.pattern :=
  extract_of_holds 0 8 h hm

/-- The rows whose mask is the complete word, the first nibble, and the first and the last nibble. -/
theorem rowsLow_decode : ∀ r ∈ opcodeRowsLow, RowDecodes r := by
  have hmask : ∀ r ∈ opcodeRowsLow, r.mask.extractLsb' 12 4 = BitVec.allOnes 4 := by decide
  intro r hr w hw
  have h0 := wordN0_of_holds hw (hmask r hr)
  simp only [opcodeRowsLow, List.mem_cons, List.not_mem_nil, or_false] at hr
  rcases hr with rfl | rfl | rfl | rfl | rfl | rfl | hr
  iterate 2
    obtain rfl := (BitVec.and_allOnes (x := w)).symm.trans (beq_iff_eq.1 hw)
    exact ⟨_, rfl, rfl⟩
  iterate 4 exact ⟨_, by simp [decodeWord, h0]; rfl, rfl⟩
  rcases hr with rfl | rfl | rfl | rfl
  iterate 2
    have hn := wordN_of_holds hw rfl
    exact ⟨_, by simp [decodeWord, h0, hn]; rfl, rfl⟩
  iterate 2 exact ⟨_, by simp [decodeWord, h0]; rfl, rfl⟩

/-- The rows whose mask is the first and the last nibble, in group 8. -/
theorem rowsAlu_decode : ∀ r ∈ opcodeRowsAlu, RowDecodes r := by
  have hmask : ∀ r ∈ opcodeRowsAlu,
      r.mask.extractLsb' 12 4 = BitVec.allOnes 4 ∧ r.mask.extractLsb' 0 4 = BitVec.allOnes 4 := by decide
  intro r hr w hw
  obtain ⟨hmask0, hmaskN⟩ := hmask r hr
  have h0 := wordN0_of_holds hw hmask0
  have hn := wordN_of_holds hw hmaskN
  simp only [opcodeRowsAlu, List.mem_cons, List.not_mem_nil, or_false] at hr
  rcases hr with rfl | rfl | rfl | rfl | rfl | rfl | rfl | rfl | rfl
  all_goals exact ⟨_, by simp [decodeWord, decodeGroup8, h0, hn]; rfl, rfl⟩

/-- The rows whose mask is the first nibble, and the first nibble and the last byte. -/
theorem rowsHigh_decode : ∀ r ∈ opcodeRowsHigh, RowDecodes r := by
  have hmask : ∀ r ∈ opcodeRowsHigh, r.mask.extractLsb' 12 4 = BitVec.allOnes 4 := by decide
  intro r hr w hw
  have h0 := wordN0_of_holds hw (hmask r hr)
  simp only [opcodeRowsHigh, List.mem_cons, List.not_mem_nil, or_false] at hr
  rcases hr with rfl | rfl | rfl | rfl | hr
  iterate 4 exact ⟨_, by simp [decodeWord, h0]; rfl, rfl⟩
  rcases hr with rfl | rfl | hr
  iterate 2
    have hkk := wordKK_of_holds hw rfl
    exact ⟨_, by simp [decodeWord, decodeGroupE, h0, hkk]; rfl, rfl⟩
  rcases hr with rfl | rfl | rfl | rfl | rfl | rfl | rfl | rfl | rfl
  all_goals
    have hkk := wordKK_of_holds hw rfl
    exact ⟨_, by simp [decodeWord, decodeGroupF, h0, hkk]; rfl, rfl⟩

theorem rows_decode {r : OpcodeRow} (hr : r ∈ opcodeRows) : RowDecodes r := by
  rw [opcodeRows, List.mem_append, List.mem_append] at hr
  obtain (hlow | halu) | hhigh := hr
  · exact rowsLow_decode r hlow
  · exact rowsAlu_decode r halu
  · exact rowsHigh_decode r hhigh

theorem rows_eq_of_mnemonic : ∀ r ∈ opcodeRows, ∀ r' ∈ opcodeRows, r.mnemonic = r'.mnemonic → r = r' := by
  decide

theorem fieldsFit (i : Instr) : Laws.FieldsFit.Statement i := by
  cases i with
  | cls => exact Laws.FieldsFit.cls
  | ret => exact Laws.FieldsFit.ret
  | jp nnn => exact Laws.FieldsFit.jp nnn
  | call nnn => exact Laws.FieldsFit.call nnn
  | seImm x kk => exact Laws.FieldsFit.seImm x kk
  | sneImm x kk => exact Laws.FieldsFit.sneImm x kk
  | seReg x y => exact Laws.FieldsFit.seReg x y
  | sneReg x y => exact Laws.FieldsFit.sneReg x y
  | ldImm x kk => exact Laws.FieldsFit.ldImm x kk
  | addImm x kk => exact Laws.FieldsFit.addImm x kk
  | ldReg x y => exact Laws.FieldsFit.ldReg x y
  | orReg x y => exact Laws.FieldsFit.orReg x y
  | andReg x y => exact Laws.FieldsFit.andReg x y
  | xorReg x y => exact Laws.FieldsFit.xorReg x y
  | addReg x y => exact Laws.FieldsFit.addReg x y
  | subReg x y => exact Laws.FieldsFit.subReg x y
  | shr x y => exact Laws.FieldsFit.shr x y
  | subnReg x y => exact Laws.FieldsFit.subnReg x y
  | shl x y => exact Laws.FieldsFit.shl x y
  | ldI nnn => exact Laws.FieldsFit.ldI nnn
  | jpV0 nnn => exact Laws.FieldsFit.jpV0 nnn
  | rnd x kk => exact Laws.FieldsFit.rnd x kk
  | drw x y n => exact Laws.FieldsFit.drw x y n
  | skp x => exact Laws.FieldsFit.skp x
  | sknp x => exact Laws.FieldsFit.sknp x
  | ldVxDT x => exact Laws.FieldsFit.ldVxDT x
  | ldK x => exact Laws.FieldsFit.ldK x
  | ldDTVx x => exact Laws.FieldsFit.ldDTVx x
  | ldSTVx x => exact Laws.FieldsFit.ldSTVx x
  | addI x => exact Laws.FieldsFit.addI x
  | ldF x => exact Laws.FieldsFit.ldF x
  | ldB x => exact Laws.FieldsFit.ldB x
  | ldMemStore x => exact Laws.FieldsFit.ldMemStore x
  | ldMemLoad x => exact Laws.FieldsFit.ldMemLoad x

/-- The word of every instruction matches the row of its mnemonic (R76). -/
theorem encode_matches_row (i : Instr) :
    ∃ r ∈ opcodeRows, r.holds (encode i) = true ∧ r.mnemonic = i.mnemonic := by
  obtain ⟨-, r, hr, hname, hholds⟩ := fieldsFit i
  exact ⟨r, hr, hholds, hname⟩

/-- Settles O3: each row decodes by the fields its mask fixes, a decoded word is its instruction's word, and two rows
that match one word have the mnemonic of the one instruction it decodes to. -/
theorem decoderAgreesWithOpcodeTable : Obligations.DecoderAgreesWithOpcodeTable := by
  unfold Obligations.DecoderAgreesWithOpcodeTable
  refine fun w => ⟨fun r hr hw => rows_decode hr w hw, fun i hi => ?_, fun r hr r' hr' hw hw' => ?_⟩
  · rw [← encode_of_decodeWord hi]
    exact encode_matches_row i
  · obtain ⟨i, hi, hname⟩ := rows_decode hr w hw
    obtain ⟨i', hi', hname'⟩ := rows_decode hr' w hw'
    obtain rfl : i = i' := Except.ok.inj (hi.symm.trans hi')
    exact rows_eq_of_mnemonic r hr r' hr' (hname.symm.trans hname')

/-- Settles O5: eleven fixed words, each decoded by evaluation. -/
theorem exampleWordsDecode : Obligations.ExampleWordsDecode := by
  unfold Obligations.ExampleWordsDecode
  decide

end Sys2Proof
end

section
/-! PROOFS. Whole-machine rules: all an instruction can do, said once, and what follows from it: the writers of each
piece of state (spec/10_state.md) and the invariant of the step. -/

namespace Sys2Proof.Machine

/-! ## All an instruction can do -/

/-- The skips (R123 to R126, R210, R211). -/
def IsSkip (i : Instr) : Prop :=
  (∃ x kk, i = .seImm x kk ∨ i = .sneImm x kk) ∨ (∃ x y, i = .seReg x y ∨ i = .sneReg x y) ∨
    ∃ x, i = .skp x ∨ i = .sknp x

/-- `Effect s i t`: from `s` an instruction `i` that completes can lead to `t`, by the piece of state it writes. -/
inductive Effect (s : State) : Instr → State → Prop where
  /-- General registers, or nothing. -/
  | registers (i : Instr) (v : Vector Byte 16) : Effect s i { s with v := v }
  /-- The framebuffer, all of it (R190). -/
  | clear : Effect s .cls (setScreen s blankScreen)
  /-- The framebuffer, and VF (R192). -/
  | draw (x y : Reg) (n : Fin 16) (fb : Screen) (flag : Byte) :
    Effect s (.drw x y n) (writeV (setScreen s fb) regF flag)
  /-- The index register, and VF (R170 to R172). -/
  | index (i : Instr) (hi : (∃ nnn, i = .ldI nnn) ∨ ∃ x, i = .addI x ∨ i = .ldF x) (a : Word) (v : Vector Byte 16) :
    Effect s i { s with i := a, v := v }
  /-- A block of memory at I (R173, R174). -/
  | store (i : Instr) (bs : List Byte) (m : Memory)
    (hi : (∃ x, i = .ldB x ∧ bs.length = 3) ∨ ∃ x, i = .ldMemStore x ∧ bs.length = x.val + 1)
    (hm : writeBlock s.mem s.i.toNat bs = .ok m) : Effect s i (setMem s m)
  /-- The delay timer (R214). -/
  | delay (x : Reg) : Effect s (.ldDTVx x) (setDt s (readV s x))
  /-- The sound timer (R215). -/
  | sound (x : Reg) : Effect s (.ldSTVx x) (setSt s (readV s x))
  /-- PC, from the operand (R120). -/
  | jump (nnn : BitVec 12) : Effect s (.jp nnn) (setPc s (zextAddress nnn))
  /-- PC, from the operand and V[0] (R127). -/
  | jumpV0 (nnn : BitVec 12) : Effect s (.jpV0 nnn) (setPc s (zextAddress nnn + zextByte (readV s 0)))
  /-- PC, or nothing (R103). -/
  | skip (i : Instr) (hi : IsSkip i) (c : Bool) : Effect s i (skipIf c s)
  /-- PC, back to the fetch address (R212). -/
  | wait (x : Reg) (hkeys : lowestKey s = none) : Effect s (.ldK x) (setPc s (fetchPC s))
  /-- The stack, its pointer and PC (R122). -/
  | call (nnn : BitVec 12) (hsp : s.sp ≠ 15) :
    Effect s (.call nnn) (setPc { s with
      sp := s.sp + 1, stack := s.stack.set (s.sp + 1).val s.pc (s.sp + 1).isLt } (zextAddress nnn))
  /-- The stack pointer and PC (R121). -/
  | ret (hsp : s.sp ≠ 0) : Effect s .ret { s with pc := s.stack[s.sp], sp := s.sp - 1 }

/-- A block store at I that completes. -/
theorem effect_of_writeFromI {i : Instr} {s t : State} {bs : List Byte}
    (hi : (∃ x, i = .ldB x ∧ bs.length = 3) ∨ ∃ x, i = .ldMemStore x ∧ bs.length = x.val + 1)
    (h : finish (writeFromI s bs) = .next t) : Effect s i t := by
  obtain ⟨m, hm, rfl⟩ := writeFromI_ok s t bs ((finish_eq_next _ _).1 h)
  exact .store i bs m hi hm

/-- Every instruction that completes has one of the effects listed. -/
theorem exec_effect {i : Instr} {s t : State} (h : exec i s = .next t) : Effect s i t := by
  cases i with
  | cls => cases h; exact .clear
  | ret => obtain ⟨hsp, rfl⟩ := popReturn_ok s t ((finish_eq_next _ _).1 h); exact .ret hsp
  | jp nnn => cases h; exact .jump nnn
  | call nnn => obtain ⟨hsp, rfl⟩ := exec_call_ok nnn s t h; exact .call nnn hsp
  | seImm x kk => cases h; exact .skip _ (.inl ⟨x, kk, .inl rfl⟩) _
  | sneImm x kk => cases h; exact .skip _ (.inl ⟨x, kk, .inr rfl⟩) _
  | seReg x y => cases h; exact .skip _ (.inr (.inl ⟨x, y, .inl rfl⟩)) _
  | sneReg x y => cases h; exact .skip _ (.inr (.inl ⟨x, y, .inr rfl⟩)) _
  | skp x => obtain ⟨-, rfl⟩ := exec_skp_ok x s t h; exact .skip _ (.inr (.inr ⟨x, .inl rfl⟩)) _
  | sknp x => obtain ⟨-, rfl⟩ := exec_sknp_ok x s t h; exact .skip _ (.inr (.inr ⟨x, .inr rfl⟩)) _
  | ldI nnn => cases h; exact .index _ (.inl ⟨nnn, rfl⟩) _ _
  | addI x => cases h; exact .index _ (.inr ⟨x, .inl rfl⟩) _ _
  | ldF x => cases h; exact .index _ (.inr ⟨x, .inr rfl⟩) _ _
  | jpV0 nnn => cases h; exact .jumpV0 nnn
  | drw x y n => obtain ⟨rows, -, rfl⟩ := exec_drw_ok x y n s t h; exact .draw x y n _ _
  | ldK x =>
    rcases exec_ldK_ok x s t h with ⟨hkeys, rfl⟩ | ⟨k, -, rfl⟩
    · exact .wait x hkeys
    · exact .registers _ _
  | ldDTVx x => cases h; exact .delay x
  | ldSTVx x => cases h; exact .sound x
  | ldB x => exact effect_of_writeFromI (.inl ⟨x, rfl, rfl⟩) h
  | ldMemStore x => exact effect_of_writeFromI (.inr ⟨x, rfl, regsUpTo_length s x⟩) h
  | ldMemLoad x => obtain ⟨bs, -, rfl⟩ := exec_ldMemLoad_ok x s t h; exact .registers _ _
  | ldImm | addImm | ldReg | orReg | andReg | xorReg | addReg | subReg | shr | subnReg | shl | rnd | ldVxDT =>
    cases h; exact .registers _ _

/-! ## The writers of each piece of state -/

/-- Settles O56: of the effects only the clear and the drawing touch the display. -/
theorem onlyDisplayInstructionsTouchScreen : Obligations.OnlyDisplayInstructionsTouchScreen := by
  unfold Obligations.OnlyDisplayInstructionsTouchScreen
  intro i s t h hne
  cases exec_effect h with
  | clear => exact .inl rfl
  | draw x y n => exact .inr ⟨x, y, n, rfl⟩
  | _ => exact absurd ⟨rfl, rfl⟩ hne

/-- A block write changes no byte outside the block (R51). -/
theorem writeBlock_changes {m m' : Memory} {a : Nat} {bs : List Byte} (hw : m.wf = true)
    (h : writeBlock m a bs = .ok m') {x : Nat} (hne : m'.read x ≠ m.read x) : a ≤ x ∧ x < a + bs.length := by
  obtain ⟨-, -, hread⟩ := writeBlock_ok bs m m' a hw h
  rw [hread] at hne
  by_cases hx : a ≤ x
  · refine ⟨hx, ?_⟩
    by_contra hout
    rw [if_pos hx, List.getElem?_eq_none (by omega)] at hne
    exact hne rfl
  · rw [if_neg hx] at hne
    exact absurd rfl hne

/-- Settles O57: of the effects only the block store writes memory, and a block write stays in its block. -/
theorem onlyBlockStoresChangeMemory : Obligations.OnlyBlockStoresChangeMemory := by
  unfold Obligations.OnlyBlockStoresChangeMemory
  intro i s t a hw h hne
  cases exec_effect h with
  | store i bs m hi hm =>
    obtain ⟨hlo, hhi⟩ := writeBlock_changes hw hm hne
    rcases hi with ⟨x, rfl, hlen⟩ | ⟨x, rfl, hlen⟩
    · exact .inl ⟨x, rfl, hlo, hlen ▸ hhi⟩
    · exact .inr ⟨x, rfl, hlo, hlen ▸ hhi⟩
  | _ => exact absurd rfl hne

theorem exec_keeps_stack {i : Instr} {s t : State} (h : exec i s = .next t) (hne : ¬ KeepsStack s t) :
    i = .ret ∨ ∃ nnn, i = .call nnn := by
  cases exec_effect h with
  | ret => exact .inl rfl
  | call nnn => exact .inr ⟨nnn, rfl⟩
  | _ => exact absurd ⟨rfl, rfl⟩ hne

theorem exec_keeps_i {i : Instr} {s t : State} (h : exec i s = .next t) (hne : t.i ≠ s.i) :
    (∃ nnn, i = .ldI nnn) ∨ ∃ x, i = .addI x ∨ i = .ldF x := by
  cases exec_effect h with
  | index i hi => exact hi
  | _ => exact absurd rfl hne

/-- Settles O58, piece by piece: the stack and the index register by the effects, the timers and the rest by the lemmas
that say what an instruction keeps of them. -/
theorem specialStateHasItsWritersOnly : Obligations.SpecialStateHasItsWritersOnly := by
  unfold Obligations.SpecialStateHasItsWritersOnly
  intro i s t h
  obtain ⟨hdt, hst⟩ := exec_keeps_timers i s t h
  obtain ⟨hdtacc, hrest⟩ := exec_keeps i s t h
  exact ⟨exec_keeps_stack h, exec_keeps_i h, hdt.resolve_left, hst.resolve_left, hdtacc, hrest⟩

/-- Settles O59: of the effects these write PC, and the wait is the one where no key is pressed. -/
theorem pcHasItsWritersOnly : Obligations.PcHasItsWritersOnly := by
  unfold Obligations.PcHasItsWritersOnly
  intro i s t h hne
  cases exec_effect h with
  | ret => exact .inl rfl
  | jump nnn => exact .inr (.inl ⟨nnn, .inl rfl⟩)
  | call nnn => exact .inr (.inl ⟨nnn, .inr (.inl rfl)⟩)
  | jumpV0 nnn => exact .inr (.inl ⟨nnn, .inr (.inr rfl)⟩)
  | skip i hi =>
    rcases hi with himm | hreg | hkey
    · exact .inr (.inr (.inl himm))
    · exact .inr (.inr (.inr (.inl hreg)))
    · exact .inr (.inr (.inr (.inr (.inl hkey))))
  | wait x hkeys => exact .inr (.inr (.inr (.inr (.inr ⟨x, rfl, (lowestKey_eq_none s).1 hkeys⟩))))
  | _ => exact absurd rfl hne

/-! ## The invariant -/

theorem zextByte_toNat (b : Byte) : (zextByte b).toNat = b.toNat := BitVec.toNat_setWidth_of_le (by decide)

/-- The jump by V[0] is exact: neither operand reaches the sum's top bits (R127). -/
theorem jumpV0_toNat (nnn : BitVec 12) (b : Byte) : (zextAddress nnn + zextByte b).toNat = nnn.toNat + b.toNat := by
  have hn := nnn.isLt
  have hb := b.isLt
  rw [BitVec.toNat_add, zextAddress_toNat, zextByte_toNat]
  omega

/-- A skip from an address of memory stays below the bound of PC (R25). -/
theorem skipIf_pc_le {s : State} (c : Bool) (hpc : s.pc.toNat < 0x1000) : (skipIf c s).pc.toNat ≤ 0x10FE := by
  rw [skipIf_pc]
  split
  · rw [BitVec.toNat_add, show (2 : Word).toNat = 2 from rfl]
    omega
  · omega

/-- With a free slot the pointer goes up without wrapping (R27). -/
theorem sp_add_one_val {sp : Fin 16} (hsp : sp ≠ 15) : (sp + 1).val = sp.val + 1 :=
  Fin.val_add_one_of_lt (Fin.lt_last_iff_ne_last.2 hsp)

/-- A push keeps every entry an address of memory and slot 0 unused: the slot it fills is not slot 0 (R122). -/
theorem inv_push {s : State} (hinv : Inv s) (hpc : s.pc.toNat < 0x1000) (hsp : s.sp ≠ 15) :
    Inv { s with sp := s.sp + 1, stack := s.stack.set (s.sp + 1).val s.pc (s.sp + 1).isLt } := by
  have hslot : (s.sp + 1).val ≠ 0 := sp_add_one_val hsp ▸ Nat.succ_ne_zero s.sp.val
  refine { hinv with stack_le := fun j => ?_, slot_zero := ?_ }
  · have hj := hinv.stack_le j
    simp only [Fin.getElem_fin, Vector.getElem_set] at hj ⊢
    split
    · omega
    · exact hj
  · have hzero := hinv.slot_zero
    simp only [Fin.getElem_fin, Vector.getElem_set] at hzero ⊢
    exact (if_neg hslot).trans hzero

/-- An instruction that starts with PC an address of memory, as the default advance leaves it, keeps the invariant. -/
theorem exec_keeps_inv {i : Instr} {s t : State} (hinv : Inv s) (hpc : s.pc.toNat < 0x1000)
    (h : exec i s = .next t) : Inv t := by
  cases exec_effect h with
  | registers | clear | draw | index | delay | sound => exact { hinv with }
  | store i bs m hi hm =>
    obtain ⟨-, hwf, -⟩ := writeBlock_ok bs s.mem m _ hinv.mem_wf hm
    exact { hinv with mem_wf := hwf }
  | jump nnn =>
    have hn := nnn.isLt
    refine { hinv with pc_le := ?_ }
    rw [setPc_pc, zextAddress_toNat]
    omega
  | jumpV0 nnn =>
    have hn := nnn.isLt
    have hb := (readV s 0).isLt
    refine { hinv with pc_le := ?_ }
    rw [setPc_pc, jumpV0_toNat]
    omega
  | skip i hi c => exact { hinv with pc_le := skipIf_pc_le c hpc }
  | wait x =>
    refine { hinv with pc_le := ?_ }
    rw [setPc_pc, fetchPC_toNat]
    omega
  | call nnn hsp =>
    have hn := nnn.isLt
    refine { inv_push hinv hpc hsp with pc_le := ?_ }
    rw [setPc_pc, zextAddress_toNat]
    omega
  | ret hsp => exact { hinv with pc_le := (hinv.stack_le s.sp).trans (by decide) }

theorem executeWord_keeps_inv {w : Word} {s t : State} (hinv : Inv s) (hpc : s.pc.toNat < 0x1000)
    (h : executeWord w s = .next t) : Inv t := by
  unfold executeWord at h
  split at h
  · exact exec_keeps_inv hinv hpc h
  · cases h
    exact { hinv with }

/-- The timer policy keeps the accumulator in 1..16,666,667 (R240). -/
theorem timerPolicy_keeps_inv {s : State} (hinv : Inv s) : Inv (timerPolicy s) := by
  have hle := hinv.dtacc_le
  rcases Nat.lt_or_ge s.periodNs s.dtacc with hlt | hdue
  · obtain ⟨hacc, -⟩ := timerPolicy_of_not_due s hlt
    exact { hinv with dtacc_pos := by omega, dtacc_le := by omega }
  · obtain ⟨hacc, -⟩ := timerPolicy_of_due s hdue
    exact { hinv with dtacc_pos := hacc ▸ by decide, dtacc_le := hacc.le }

/-- The default advance as a number (R102). -/
theorem advancePc_pc_toNat (s : State) : (advancePc s).pc.toNat = (s.pc.toNat + 2) % 4096 := by
  rw [advancePc_pc, BitVec.toNat_ofNat]
  simp only [memSize]
  omega

/-- The default advance leaves PC an address of memory (R102). -/
theorem advancePc_pc_lt (s : State) : (advancePc s).pc.toNat < 0x1000 := by
  rw [advancePc_pc_toNat]
  exact Nat.mod_lt _ (by decide)

/-- The state an instruction starts from in a step. -/
theorem inv_advancePc_startStep {s : State} (hinv : Inv s) : Inv (advancePc (startStep s)) := by
  have hclear : Inv (clearOutputs s) := { hinv with }
  have hpc := advancePc_pc_lt (startStep s)
  exact { timerPolicy_keeps_inv hclear with pc_le := by omega }

/-- Settles O21: a step that reports or faults keeps the machine's state, and one that completes is an instruction
from a state that meets the invariant. -/
theorem everyStepKeepsInvariant : Obligations.EveryStepKeepsInvariant := by
  unfold Obligations.EveryStepKeepsInvariant
  intro s t hinv h
  obtain ⟨f, -, rfl⟩ | ⟨-, f, rfl⟩ | ⟨-, w, u, -, hu, rfl⟩ := step_cases s t h
  · exact { hinv with }
  · exact { hinv with }
  · have hinv' : Inv u := executeWord_keeps_inv (inv_advancePc_startStep hinv) (advancePc_pc_lt _) hu
    exact { hinv' with }

end Sys2Proof.Machine
end

section
/-! PROOFS. The execution cycle (spec/40_execution_cycle.md, spec/60_exceptions.md): what a step does by the word it
fetches, and the steps that fault. -/

namespace Sys2Proof.Machine

/-! ## A step by the word it fetches -/

theorem executeWord_of_decode {w : Word} {i : Instr} (s : State) (hd : decodeWord w = .ok i) :
    executeWord w s = exec i s := by
  simp only [executeWord, hd]

/-- A step of a core that has not faulted runs the instruction it fetches (R100). -/
theorem step_of_fetches {s : State} {i : Instr} (hf : s.fault = none) (h : Fetches s i) :
    step s = concludeStep s (exec i (advancePc (startStep s))) := by
  obtain ⟨w, hw, hd⟩ := h
  rw [step_of_fetch s w hf hw, executeWord_of_decode _ hd]

/-- A step whose instruction completes closes the state the instruction leaves (R100). -/
theorem step_of_exec_next {s t : State} {i : Instr} (hf : s.fault = none) (h : Fetches s i)
    (hx : exec i (advancePc (startStep s)) = .next t) : step s = .next (closeStep t) := by
  rw [step_of_fetches hf h, hx, concludeStep]

/-- A step whose instruction raises a fault ends in the faulted state (R231). -/
theorem step_of_exec_fault {s : State} {i : Instr} {f : Fault} (hf : s.fault = none) (h : Fetches s i)
    (hx : exec i (advancePc (startStep s)) = .fault f) : step s = .next (endInFault s f) := by
  rw [step_of_fetches hf h, hx, concludeStep]

/-- A fetched instruction was fetched from an address with two bytes, so the address is known while it executes
(R102). -/
theorem fetchPC_of_fetches {s : State} {i : Instr} (h : Fetches s i) : fetchPC (advancePc (startStep s)) = s.pc := by
  obtain ⟨w, hw, -⟩ := h
  exact fetchPC_advancePc (startStep s) (fetchWord_ok_lt s.mem s.pc.toNat w hw)

/-- Settles O6: the fetch by its two reads, and the step by the instruction it runs. -/
theorem stepRunsDecodedInstruction : Obligations.StepRunsDecodedInstruction := by
  unfold Obligations.StepRunsDecodedInstruction
  refine ⟨fun s hpc => ?_, fun s i hf h => ?_⟩
  · have hlt : s.pc.toNat + 1 < memSize := Nat.succ_lt_succ (Nat.lt_succ_of_le hpc)
    rw [fetchWord_eq, if_pos hlt, joinBytes]
  · rw [step_of_fetches hf h, startStep]
    cases exec i (advancePc (timerPolicy (clearOutputs s))) <;> rfl

/-- Settles O7: the step closes the state after the policy and the advance with the notice set. -/
theorem unknownWordIsNoOpWithNotice : Obligations.UnknownWordIsNoOpWithNotice := by
  unfold Obligations.UnknownWordIsNoOpWithNotice
  intro s w e hf hw hd
  have hstep : step s = .next (closeStep (noteUnknown (advancePc (startStep s)))) := by
    rw [step_of_fetch s w hf hw, executeWord, hd, concludeStep]
  exact ⟨_, hstep, rfl, rfl, advancePc_pc_toNat (startStep s), fun _ _ => rfl, fun _ => rfl, rfl, ⟨rfl, rfl⟩, rfl,
    rfl, rfl, rfl, hf, rfl⟩

/-- Settles O11: each case of the driver answers, since no instruction is refused. -/
theorem everyStepAnswersNext : Obligations.EveryStepAnswersNext := by
  unfold Obligations.EveryStepAnswersNext
  intro s
  cases hf : s.fault with
  | some f => exact ⟨_, step_of_faulted s f hf⟩
  | none =>
    cases hw : fetchWord s.mem s.pc.toNat with
    | error f => exact ⟨_, step_of_fetch_error s f hf hw⟩
    | ok w =>
      rw [step_of_fetch s w hf hw]
      cases hx : executeWord w (advancePc (startStep s)) with
      | next t => exact ⟨_, rfl⟩
      | fault f => exact ⟨_, rfl⟩
      | refused q => exact absurd hx (executeWord_ne_refused w _ q)

/-- Settles O13: the two calls agree in the random byte and in the calls to come, so only one of the three polling
instructions could tell them apart. -/
theorem keysReachOnlyKeyInstructions : Obligations.KeysReachOnlyKeyInstructions := by
  unfold Obligations.KeysReachOnlyKeyInstructions
  intro s k k' r rest hno
  refine step_withInputs { s with inputs := ⟨k', r⟩ :: rest } (⟨k, r⟩ :: rest) rfl ?_ (fun _ _ _ => rfl)
  rintro i hfetch ⟨x, hi⟩
  obtain ⟨hskp, hsknp, hldK⟩ := hno x
  rcases hi with rfl | rfl | rfl
  · exact absurd hfetch hskp
  · exact absurd hfetch hsknp
  · exact absurd hfetch hldK

/-! ## Steps that fault -/

/-- The faulted state keeps every register, byte, timer and pixel of the state the step started in (R231). -/
theorem sameMachine_endInFault (s : State) (f : Fault) : SameMachine s (endInFault s f) :=
  ⟨rfl, rfl, rfl, rfl, rfl, rfl, rfl, rfl, rfl, rfl, rfl⟩

/-- Settles O8: the fetch's fault has the first address out of range, and the step ends in the faulted state. -/
theorem fetchOutsideMemoryFaults : Obligations.FetchOutsideMemoryFaults := by
  unfold Obligations.FetchOutsideMemoryFaults
  intro s hf hpc
  have haddr : max s.pc.toNat memSize = if s.pc.toNat = 0xFFF then 0x1000 else s.pc.toNat := by
    simp only [memSize]
    split <;> omega
  have hfetch : fetchWord s.mem s.pc.toNat =
      .error (.memOutOfRange (if s.pc.toNat = 0xFFF then 0x1000 else s.pc.toNat)) := by
    rw [fetchWord_eq, if_neg (Nat.not_lt.2 (Nat.succ_le_succ hpc)), haddr]
  exact ⟨_, step_of_fetch_error s _ hf hfetch, sameMachine_endInFault s _, rfl, rfl, rfl⟩

/-- Settles O9: of a step's cases only the faulted state has a fault, where the core had none. -/
theorem faultingStepCommitsNothing : Obligations.FaultingStepCommitsNothing := by
  unfold Obligations.FaultingStepCommitsNothing
  intro s t hf h ht
  obtain ⟨f, hf', -⟩ | ⟨-, f, rfl⟩ | ⟨-, w, u, -, hu, rfl⟩ := step_cases s t h
  · exact absurd (hf.symm.trans hf') (Option.some_ne_none f).symm
  · exact sameMachine_endInFault s f
  · obtain ⟨-, hfault, -⟩ := executeWord_keeps w _ u hu
    exact absurd (hfault.trans hf) ht

/-- Settles O10: the driver only clears the outputs and closes the step. -/
theorem faultedCoreChangesNothing : Obligations.FaultedCoreChangesNothing := by
  unfold Obligations.FaultedCoreChangesNothing
  intro s f hf
  exact ⟨_, step_of_faulted s f hf, ⟨rfl, rfl, rfl, rfl, rfl, rfl, rfl, rfl, rfl, rfl, rfl⟩, hf, rfl, rfl⟩

theorem exec_call_of_full (nnn : BitVec 12) {s : State} (hsp : s.sp = 15) :
    exec (.call nnn) s = .fault (.stackOverflow (fetchPC s)) := by
  simp [exec, execCall, pushReturn, hsp]

theorem exec_ret_of_empty {s : State} (hsp : s.sp = 0) : exec .ret s = .fault (.stackUnderflow (fetchPC s)) := by
  simp [exec, execRet, popReturn, hsp]

/-- Settles O29: the fault has the fetch address, and the step ends in the faulted state. -/
theorem stackLimitsFault : Obligations.StackLimitsFault := by
  unfold Obligations.StackLimitsFault
  refine ⟨fun s nnn hf h hsp => ?_, fun s hf h hsp => ?_⟩
  · have hx := exec_call_of_full nnn (s := advancePc (startStep s)) hsp
    rw [fetchPC_of_fetches h] at hx
    exact ⟨_, step_of_exec_fault hf h hx, sameMachine_endInFault s _, rfl⟩
  · have hx := exec_ret_of_empty (s := advancePc (startStep s)) hsp
    rw [fetchPC_of_fetches h] at hx
    exact ⟨_, step_of_exec_fault hf h hx, sameMachine_endInFault s _, rfl⟩

/-! ## The parked core -/

/-- Settles O60: the step runs the jump to PC, so the next fetch finds the same jump at the same address. -/
theorem parkedStepChangesOnlyTimers : Obligations.ParkedStepChangesOnlyTimers := by
  unfold Obligations.ParkedStepChangesOnlyTimers
  rintro s ⟨hf, nnn, hw, hpc⟩
  have hfetch : Fetches s (.jp nnn) := ⟨_, hw, decodeWord_encode (.jp nnn)⟩
  have hstep : step s = .next (closeStep (setPc (advancePc (startStep s)) s.pc)) := by
    rw [step_of_exec_next hf hfetch rfl, hpc]
  exact ⟨_, hstep, ⟨hf, nnn, hw, hpc⟩, rfl, rfl, fun _ _ => rfl, rfl, ⟨rfl, rfl⟩, rfl, hf, rfl, rfl, rfl⟩

end Sys2Proof.Machine
end

section
/-! PROOFS. Memory in canonical form (spec/20_memory.md), and the host's construction and `load`
(spec/70_reset_and_hazards.md sections 1 and 2). -/

namespace Sys2Proof.Machine

/-! ## Canonical memories -/

theorem Memory.wfFrom_cons (lo k : Nat) (c : Byte) (m : Memory) :
    Memory.wfFrom lo ((k, c) :: m) = true ↔
      lo ≤ k ∧ k < memSize ∧ c ≠ Memory.unlisted k ∧ m.wfFrom (k + 1) = true := by
  simp only [Memory.wfFrom, Bool.and_eq_true, decide_eq_true_eq, bne_iff_ne, and_assoc]

/-- A listed byte tells a canonical memory from one that lists nothing up to its address. -/
theorem Memory.not_read_alike {k : Nat} {c : Byte} {m m' : Memory} (hc : c ≠ Memory.unlisted k)
    (hw' : m'.wfFrom (k + 1) = true) : ¬ ∀ a, Memory.read ((k, c) :: m) a = m'.read a := by
  intro hread
  have hk := hread k
  rw [Memory.read_below m' (k + 1) k (Nat.lt_succ_self k) hw', Memory.read, if_pos rfl] at hk
  exact hc hk

/-- Of two canonical memories that read alike, neither lists an address before the other's first. -/
theorem Memory.head_le {lo k k' : Nat} {c c' : Byte} {m m' : Memory} (hw : Memory.wfFrom lo ((k, c) :: m) = true)
    (hw' : Memory.wfFrom lo ((k', c') :: m') = true)
    (hread : ∀ a, Memory.read ((k, c) :: m) a = Memory.read ((k', c') :: m') a) : k' ≤ k := by
  obtain ⟨-, -, hc, -⟩ := (Memory.wfFrom_cons lo k c m).1 hw
  obtain ⟨-, hk', hc', hm'⟩ := (Memory.wfFrom_cons lo k' c' m').1 hw'
  by_contra hlt
  exact Memory.not_read_alike hc ((Memory.wfFrom_cons (k + 1) k' c' m').2 ⟨Nat.lt_of_not_le hlt, hk', hc', hm'⟩) hread

theorem Memory.eq_of_read_alike (m : Memory) : ∀ (lo : Nat) (m' : Memory), m.wfFrom lo = true → m'.wfFrom lo = true →
    (∀ a, m.read a = m'.read a) → m = m' := by
  induction m with
  | nil =>
    intro lo m' _ hw' hread
    cases m' with
    | nil => rfl
    | cons p m' =>
      obtain ⟨-, -, hc, -⟩ := (Memory.wfFrom_cons lo p.1 p.2 m').1 hw'
      exact absurd (fun a => (hread a).symm) (Memory.not_read_alike (m' := []) hc rfl)
  | cons p m ih =>
    intro lo m' hw hw' hread
    obtain ⟨k, c⟩ := p
    obtain ⟨-, -, hc, hm⟩ := (Memory.wfFrom_cons lo k c m).1 hw
    cases m' with
    | nil => exact absurd hread (Memory.not_read_alike hc rfl)
    | cons p' m' =>
      obtain ⟨k', c'⟩ := p'
      obtain ⟨-, -, -, hm'⟩ := (Memory.wfFrom_cons lo k' c' m').1 hw'
      obtain rfl : k = k' :=
        Nat.le_antisymm (Memory.head_le hw' hw fun a => (hread a).symm) (Memory.head_le hw hw' hread)
      have hbyte : c = c' := by simpa [Memory.read] using hread k
      have htail : ∀ a, Memory.read m a = Memory.read m' a := by
        intro a
        by_cases hka : k = a
        · subst hka
          rw [Memory.read_below m (k + 1) k k.lt_succ_self hm, Memory.read_below m' (k + 1) k k.lt_succ_self hm']
        · simpa [Memory.read, hka] using hread a
      rw [hbyte, ih (k + 1) m' hm hm' htail]

/-- Settles O22, by induction on one list: the first addresses agree, then the bytes there, then the rest. -/
theorem canonicalMemoriesReadingAlikeAreEqual : Obligations.CanonicalMemoriesReadingAlikeAreEqual := by
  unfold Obligations.CanonicalMemoriesReadingAlikeAreEqual
  exact fun m m' => Memory.eq_of_read_alike m 0 m'

/-! ## Construction (R260) -/

/-- Settles O14, field by field. -/
theorem constructionSetsRegisters : Obligations.ConstructionSetsRegisters := by
  unfold Obligations.ConstructionSetsRegisters
  refine fun p => ⟨_, rfl, fun r => ?_, rfl, rfl, rfl, fun j => ?_, rfl, rfl, rfl, fun px py => ?_, rfl, rfl⟩
  · simp [readV]
  · simp
  · rw [construct_fb, pixel_blankScreen]

/-- The reset byte with the bounds of the font region written out (R31). -/
theorem resetByte_eq (p : Params) (a : Nat) :
    resetByte p a = if h : 0x050 ≤ a ∧ a < 0x0A0 then p.fontTable[a - 0x050]'(by omega) else p.initMem a := by
  unfold resetByte
  split
  case isTrue hlow => rw [dif_neg (by simp only [fontBase] at hlow; omega)]
  case isFalse hlow =>
    simp only [fontBase] at hlow ⊢
    split
    case isTrue hfont => simp [show a - 80 < 80 by omega]
    case isFalse hhigh => simp [show ¬ a - 80 < 80 by omega]

/-- Settles O15: memory is that of the reset bytes, which is canonical. -/
theorem constructionFillsMemory : Obligations.ConstructionFillsMemory := by
  unfold Obligations.ConstructionFillsMemory
  intro p
  obtain ⟨hwf, hread⟩ := Memory.ofBytes_spec (resetByte p)
  rw [construct_mem]
  exact ⟨hwf, fun a ha => (hread a ha).trans (resetByte_eq p a)⟩

/-- Settles O16: with the default parameters every reset byte is what an unlisted address reads as. -/
theorem resetIsDefaultConstruction : Obligations.ResetIsDefaultConstruction := by
  unfold Obligations.ResetIsDefaultConstruction
  have hmem : Memory.ofBytes (resetByte ⟨Config.periodNs, fun _ => 0, fontTable⟩) = [] :=
    Memory.ofBytes_unlisted _ fun _ => rfl
  rw [State.construct, hmem]
  rfl

/-! ## Load (R263) -/

theorem load_of_too_long {s : State} {rom : List Byte} (hf : s.fault = none) (hp : s.phase = .constructed)
    (hlen : romMax < rom.length) : State.load rom s = .next (enterFault s (.romTooLarge rom.length)) := by
  simp only [State.load, hf, hp, if_pos hlen]

/-- A ROM that fits is written to the program area, which lies in memory. -/
theorem load_of_fits {s : State} {rom : List Byte} (hf : s.fault = none) (hp : s.phase = .constructed)
    (hlen : rom.length ≤ romMax) :
    ∃ m, writeBlock s.mem programBase rom = .ok m ∧ State.load rom s = .next { s with mem := m, phase := .loaded } := by
  have hfits : rom = [] ∨ programBase + rom.length ≤ memSize := .inr (Nat.add_le_of_le_sub' (by decide) hlen)
  have hwrite := writeBlock_cases rom s.mem programBase
  rw [if_pos hfits] at hwrite
  obtain ⟨m, hm⟩ := hwrite
  exact ⟨m, hm, by simp only [State.load, hf, hp, if_neg (Nat.not_lt.2 hlen), hm]⟩

/-- Settles O17: the block write puts the ROM's bytes at 0x200 on, and the record update leaves the rest. -/
theorem loadCopiesRomTo0x200 : Obligations.LoadCopiesRomTo0x200 := by
  unfold Obligations.LoadCopiesRomTo0x200
  intro s rom hw hf hp hlen
  obtain ⟨m, hm, hload⟩ := load_of_fits hf hp hlen
  obtain ⟨-, hwf, hread⟩ := writeBlock_ok rom s.mem m programBase hw hm
  have hrom : ∀ j, j < rom.length → some (m.read (0x200 + j)) = rom[j]? := by
    intro j hj
    simp [hread, programBase, hj]
  have houtside : ∀ a, a < 0x200 ∨ 0x200 + rom.length ≤ a → m.read a = s.mem.read a := by
    intro a ha
    by_contra hne
    have := writeBlock_changes hw hm hne
    simp only [programBase] at this
    omega
  exact ⟨_, hload, hrom, houtside, hwf, fun _ _ => rfl, rfl, rfl, ⟨rfl, rfl⟩, ⟨rfl, rfl, rfl⟩, ⟨rfl, rfl⟩, hf, rfl, rfl⟩

/-- Settles O18: the length test comes before any write, and a closed step leaves the phase `running`. -/
theorem loadOutOfBoundsOrOrderStops : Obligations.LoadOutOfBoundsOrOrderStops := by
  unfold Obligations.LoadOutOfBoundsOrOrderStops
  refine ⟨fun s rom hf hp hlen => ?_, fun s rom hf hp => ?_, fun s t rom hf h ht => ?_⟩
  · exact ⟨_, load_of_too_long hf hp hlen, ⟨rfl, rfl, rfl, rfl, rfl, rfl, rfl, rfl, rfl, rfl, rfl⟩, rfl⟩
  · simp only [State.load, hf, hp]
  · obtain ⟨w, u, -, -, rfl⟩ := step_without_fault s t h ht
    simp only [State.load, ht, closeStep_phase]

/-! ## The invariant -/

/-- All `load` can do where it answers a state. -/
theorem load_cases {s t : State} {rom : List Byte} (h : State.load rom s = .next t) :
    (∃ f, t = enterFault s f) ∨
      ∃ m, writeBlock s.mem programBase rom = .ok m ∧ t = { s with mem := m, phase := .loaded } := by
  unfold State.load at h
  split at h
  case h_4 =>
    split at h
    · cases h; exact .inl ⟨_, rfl⟩
    · split at h
      · cases h; exact .inl ⟨_, rfl⟩
      · cases h; exact .inr ⟨_, ‹_›, rfl⟩
  all_goals cases h

theorem construct_inv {p : Params} (hp : p.wellFormed = true) : Inv (State.construct p) where
  mem_wf := by
    rw [construct_mem]
    exact (Memory.ofBytes_spec (resetByte p)).1
  pc_le := by rw [construct_pc]; decide
  stack_le := by simp
  slot_zero := by simp
  dtacc_pos := by rw [construct_dtacc]; decide
  dtacc_le := by rw [construct_dtacc]
  period_pos := of_decide_eq_true hp

theorem load_keeps_inv {s t : State} {rom : List Byte} (hinv : Inv s) (h : State.load rom s = .next t) : Inv t := by
  obtain ⟨f, rfl⟩ | ⟨m, hm, rfl⟩ := load_cases h
  · exact { hinv with }
  · obtain ⟨-, hwf, -⟩ := writeBlock_ok rom s.mem m programBase hinv.mem_wf hm
    exact { hinv with mem_wf := hwf }

/-- Settles O20. -/
theorem constructAndLoadMeetInvariant : Obligations.ConstructAndLoadMeetInvariant := by
  unfold Obligations.ConstructAndLoadMeetInvariant
  exact ⟨fun p => construct_inv, fun s t rom => load_keeps_inv⟩

/-- Settles O19: reset is a construction with a period of at least 1 ns. -/
theorem invariantHoldsAtReset : Obligations.InvariantHoldsAtReset := by
  unfold Obligations.InvariantHoldsAtReset
  rw [← resetIsDefaultConstruction]
  exact construct_inv (decide_eq_true (Nat.succ_pos _))

end Sys2Proof.Machine
end

section
/-! PROOFS. Blocks of memory (spec/43_index_memory.md): the three block instructions in memory, out of it, and one after
the other. -/

namespace Sys2Proof.Machine

/-! ## Block stores -/

/-- A memory write changes memory only. -/
theorem onlyMemoryAt_setMem {s : State} {m : Memory} {base len : Nat}
    (hm : ∀ a, (a < base ∨ base + len ≤ a) → m.read a = s.mem.read a) : OnlyMemoryAt base len s (setMem s m) :=
  ⟨fun _ _ => rfl, rfl, rfl, hm, ⟨rfl, rfl⟩, ⟨rfl, rfl, rfl⟩, ⟨rfl, rfl⟩, rfl, rfl, rfl, rfl, rfl, rfl⟩

/-- A store at I of bytes that fit in memory: they read back in order, and no other byte changes (R51). -/
theorem writeFromI_of_fits {s : State} {bs : List Byte} (hw : s.mem.wf = true)
    (hfit : s.i.toNat + bs.length ≤ memSize) :
    ∃ t, writeFromI s bs = .ok t ∧ (∀ k b, bs[k]? = some b → t.mem.read (s.i.toNat + k) = b) ∧
      OnlyMemoryAt s.i.toNat bs.length s t := by
  have hcases := writeFromI_cases s bs
  rw [if_pos (.inr hfit)] at hcases
  obtain ⟨m, hm, ht⟩ := hcases
  obtain ⟨-, -, hread⟩ := writeBlock_ok bs s.mem m _ hw hm
  refine ⟨_, ht, fun k b hk => ?_, onlyMemoryAt_setMem fun a ha => ?_⟩
  · rw [setMem_mem, hread, if_pos (Nat.le_add_right _ k), Nat.add_sub_cancel_left, hk, Option.getD_some]
  · by_contra hne
    have := writeBlock_changes hw hm hne
    omega

/-- A store at I of bytes that do not all fit raises the fault with the first address out of range (R52, R233). -/
theorem writeFromI_of_not_fits {s : State} {bs : List Byte} (hne : bs ≠ []) (hfit : memSize < s.i.toNat + bs.length) :
    writeFromI s bs = .error (.memOutOfRange (max s.i.toNat memSize)) := by
  have hcases := writeFromI_cases s bs
  rwa [if_neg (not_or.2 ⟨hne, Nat.not_le.2 hfit⟩)] at hcases

theorem exec_ldB (x : Reg) (s : State) :
    exec (.ldB x) s = finish (writeFromI s (decimalDigits (readV s x))) := rfl

theorem exec_ldMemStore (x : Reg) (s : State) : exec (.ldMemStore x) s = finish (writeFromI s (regsUpTo s x)) := rfl

/-- A digit's byte is the digit: it is less than 256. -/
theorem digit_toNat {n : Nat} (b : Byte) (hn : n ≤ b.toNat) : (BitVec.ofNat 8 n).toNat = n := by
  have := b.isLt
  rw [BitVec.toNat_ofNat]
  omega

/-- Settles O43: the store of the three digits, which are bytes of their own values. -/
theorem ldBStoresDecimalDigits : Obligations.LdBStoresDecimalDigits := by
  unfold Obligations.LdBStoresDecimalDigits
  intro x s hw hi
  have hfit : s.i.toNat + (decimalDigits (readV s x)).length ≤ memSize := hi
  obtain ⟨t, ht, hdigits, honly⟩ := writeFromI_of_fits hw hfit
  refine ⟨t, by rw [exec_ldB, ht, finish_ok], ?_, ?_, ?_, honly⟩
  · rw [← Nat.add_zero s.i.toNat, hdigits 0 _ rfl, digit_toNat (readV s x) (by omega)]
  · rw [hdigits 1 _ rfl, digit_toNat (readV s x) (by omega)]
  · rw [hdigits 2 _ rfl, digit_toNat (readV s x) (by omega)]

/-- Settles O44: the store of the registers, which are x + 1 bytes. -/
theorem storeBlockWritesRegisters : Obligations.StoreBlockWritesRegisters := by
  unfold Obligations.StoreBlockWritesRegisters
  intro x s hw hi
  have hlen := regsUpTo_length s x
  obtain ⟨t, ht, hregs, honly⟩ := writeFromI_of_fits (bs := regsUpTo s x) hw (hlen ▸ hi)
  exact ⟨t, by rw [exec_ldMemStore, ht, finish_ok], fun r hr => hregs r.val _ (regsUpTo_getElem? s x r hr),
    hlen ▸ honly⟩

/-! ## The block load -/

/-- The bytes from I on, `n` of them. -/
def bytesAtI (s : State) (n : Nat) : List Byte := (List.range n).map fun k => s.mem.read (s.i.toNat + k)

theorem bytesAtI_getElem? (s : State) (n k : Nat) :
    (bytesAtI s n)[k]? = if k < n then some (s.mem.read (s.i.toNat + k)) else none := by
  split
  case isTrue hk => simp [bytesAtI, hk]
  case isFalse hk => simp [bytesAtI, Nat.le_of_not_lt hk]

theorem readFromI_of_fits {s : State} {n : Nat} (hfit : n = 0 ∨ s.i.toNat + n ≤ memSize) :
    readFromI s n = .ok (bytesAtI s n) := by
  rw [readFromI_eq, if_pos hfit, bytesAtI]

/-- A read at I of bytes that are not all in memory raises the fault with the first address out of range (R52, R233). -/
theorem readFromI_of_not_fits {s : State} {n : Nat} (hn : n ≠ 0) (hfit : memSize < s.i.toNat + n) :
    readFromI s n = .error (.memOutOfRange (max s.i.toNat memSize)) := by
  rw [readFromI_eq, if_neg (not_or.2 ⟨hn, Nat.not_le.2 hfit⟩)]

theorem exec_ldMemLoad_of_fits {s : State} {x : Reg} (hi : s.i.toNat + x.val < 0x1000) :
    exec (.ldMemLoad x) s = .next (writeRegs s (bytesAtI s (x.val + 1))) := by
  simp only [exec, execLdMemLoad, readFromI_of_fits (.inr (show s.i.toNat + (x.val + 1) ≤ memSize from hi)), finish_ok]

/-- What a register holds after the load: a byte of memory up to V[x], its old value above (R175). -/
theorem readV_load (s : State) (x r : Reg) :
    readV (writeRegs s (bytesAtI s (x.val + 1))) r =
      if r.val ≤ x.val then s.mem.read (s.i.toNat + r.val) else readV s r := by
  rw [readV_writeRegs, bytesAtI_getElem?]
  simp only [Nat.lt_succ_iff]
  split <;> rfl

/-- Settles O45: the load reads x + 1 bytes and writes the registers they reach. -/
theorem loadBlockReadsMemory : Obligations.LoadBlockReadsMemory := by
  unfold Obligations.LoadBlockReadsMemory
  intro x s hi
  have habove : ∀ r : Reg, x.val < r.val → readV (writeRegs s (bytesAtI s (x.val + 1))) r = readV s r :=
    fun r hr => by rw [readV_load, if_neg (Nat.not_le.2 hr)]
  refine ⟨_, exec_ldMemLoad_of_fits hi, fun r hr => by rw [readV_load, if_pos hr], habove,
    onlyRegs_of_keepsRegs fun r hr => habove r ?_⟩
  by_contra hle
  exact hr (List.mem_map.2 ⟨r.val, List.mem_range.2 (by omega), Fin.ofNat_val_eq_self r⟩)

/-! ## Out of memory, and back -/

theorem exec_ldMemStore_of_not_fits {s : State} {x : Reg} (h : 0x1000 ≤ s.i.toNat + x.val) :
    exec (.ldMemStore x) s = .fault (.memOutOfRange (max s.i.toNat 0x1000)) := by
  have hlen := regsUpTo_length s x
  have hne : regsUpTo s x ≠ [] := List.ne_nil_of_length_eq_add_one hlen
  rw [exec_ldMemStore, writeFromI_of_not_fits hne (hlen ▸ Nat.lt_succ_of_le h), finish_error]

/-- Settles O46: each form reads or writes at least one byte, from I on. -/
theorem blockAccessesOutsideMemoryFault : Obligations.BlockAccessesOutsideMemoryFault := by
  unfold Obligations.BlockAccessesOutsideMemoryFault
  refine fun x y n s => ⟨fun h => ?_, exec_ldMemStore_of_not_fits, fun h => ?_, fun hn h => ?_⟩
  · have hfit : memSize < s.i.toNat + (decimalDigits (readV s x)).length := Nat.lt_succ_of_le h
    have hne : decimalDigits (readV s x) ≠ [] := List.cons_ne_nil _ _
    rw [exec_ldB, writeFromI_of_not_fits hne hfit, finish_error]
  · simp only [exec, execLdMemLoad, readFromI_of_not_fits x.val.succ_ne_zero (Nat.lt_succ_of_le h), finish_error]
  · have hfit : memSize < s.i.toNat + n.val := by
      simp only [memSize]
      omega
    simp only [exec, execDrw, readFromI_of_not_fits hn.ne' hfit, finish_error]

/-- Settles O47: a store that completes fits in memory and keeps I, so the load reads the bytes it left. -/
theorem storeThenLoadRestoresRegisters : Obligations.StoreThenLoadRestoresRegisters := by
  unfold Obligations.StoreThenLoadRestoresRegisters
  intro x s t u hw h hmem hi
  have hfit : s.i.toNat + x.val < 0x1000 := by
    by_contra hout
    rw [exec_ldMemStore_of_not_fits (Nat.le_of_not_lt hout)] at h
    cases h
  obtain ⟨t', ht', hstored, -, -, hkeeps_i, -⟩ := storeBlockWritesRegisters x s hw hfit
  obtain rfl : t' = t := Host.Outcome.next.inj (ht'.symm.trans h)
  rw [hkeeps_i] at hi
  refine ⟨_, exec_ldMemLoad_of_fits (hi ▸ hfit), fun r hr => ?_⟩
  rw [readV_load, if_pos hr, hmem, hi, hstored r hr]

end Sys2Proof.Machine
end

section
/-! PROOFS. The cadence of the timers (spec/60_exceptions.md R241): the accumulator after n steps, by induction on the
run. -/

namespace Sys2Proof.Machine

/-- K, the steps from one tick of the timers to the next: the timer period over the step period, rounded up (R241). -/
def stepsPerTick (period : Nat) : Nat := (16666667 + period - 1) / period

/-- `n` steps make up a tick exactly where `n` periods reach the timer period. -/
theorem stepsPerTick_le_iff {period : Nat} (hp : 1 ≤ period) (n : Nat) :
    stepsPerTick period ≤ n ↔ 16666667 ≤ n * period := by
  rw [stepsPerTick, ← Nat.lt_succ_iff, Nat.div_lt_iff_lt_mul hp, Nat.succ_mul]
  omega

theorem stepsPerTick_pos {period : Nat} (hp : 1 ≤ period) : 0 < stepsPerTick period := by
  rw [Nat.pos_iff_ne_zero, ne_eq, ← Nat.le_zero, stepsPerTick_le_iff hp]
  omega

/-- The step number within a tick goes up by one and starts again at K. -/
theorem succ_mod_eq_ite {k : Nat} (hk : 0 < k) (n : Nat) : (n + 1) % k = if n % k + 1 = k then 0 else n % k + 1 := by
  have hlt := Nat.mod_lt n hk
  rw [← Nat.mod_add_mod]
  split
  case isTrue hend => rw [hend, Nat.mod_self]
  case isFalse hmid => exact Nat.mod_eq_of_lt (by omega)

/-- `AfterSteps n s`: the accumulator is where `n` steps from a full one leave it. -/
def AfterSteps (n : Nat) (s : State) : Prop :=
  s.dtacc = 16666667 - n % stepsPerTick s.periodNs * s.periodNs

/-- The next policy is due exactly where its step completes a tick. -/
theorem due_iff_of_afterSteps {n : Nat} {s : State} (hp : 1 ≤ s.periodNs) (h : AfterSteps n s) :
    s.dtacc ≤ s.periodNs ↔ n % stepsPerTick s.periodNs + 1 = stepsPerTick s.periodNs := by
  have hlt := Nat.mod_lt n (stepsPerTick_pos hp)
  calc s.dtacc ≤ s.periodNs
      ↔ 16666667 ≤ (n % stepsPerTick s.periodNs + 1) * s.periodNs := by
        rw [h, Nat.sub_le_iff_le_add, Nat.add_comm, Nat.succ_mul]
    _ ↔ n % stepsPerTick s.periodNs + 1 = stepsPerTick s.periodNs := by
        rw [← stepsPerTick_le_iff hp]
        omega

/-- One run of the policy is one step of the cadence. -/
theorem afterSteps_timerPolicy {n : Nat} {s : State} (hp : 1 ≤ s.periodNs) (h : AfterSteps n s) :
    AfterSteps (n + 1) (timerPolicy s) := by
  have hdue := due_iff_of_afterSteps hp h
  rw [AfterSteps, timerPolicy_periodNs, succ_mod_eq_ite (stepsPerTick_pos hp)]
  rcases Nat.lt_or_ge s.periodNs s.dtacc with hlt | hle
  · obtain ⟨hacc, -⟩ := timerPolicy_of_not_due s hlt
    rw [if_neg (hdue.not.1 (Nat.not_le.2 hlt)), Nat.succ_mul, ← Nat.sub_sub, ← h, ← hacc, Nat.add_sub_cancel]
  · obtain ⟨hacc, -⟩ := timerPolicy_of_due s hle
    rw [if_pos (hdue.1 hle), hacc, Nat.zero_mul]

/-- A timer after the next policy (R240, R241). -/
theorem countDown_of_afterSteps {n : Nat} {s : State} (hp : 1 ≤ s.periodNs) (h : AfterSteps n s) (b : Byte) :
    (countDown (timerDue s) b).toNat =
      if (n + 1) % stepsPerTick s.periodNs = 0 then b.toNat - 1 else b.toNat := by
  have hdue : timerDue s = true ↔ (n + 1) % stepsPerTick s.periodNs = 0 := by
    rw [timerDue_iff, due_iff_of_afterSteps hp h, succ_mod_eq_ite (stepsPerTick_pos hp)]
    split <;> omega
  simp only [countDown_toNat, hdue]

/-- A step that ends without a fault is one step of the cadence, whatever the instruction (R216, R240). -/
theorem afterSteps_step {n : Nat} {s t : State} (hp : 1 ≤ s.periodNs) (hs : AfterSteps n s) (h : step s = .next t)
    (ht : t.fault = none) : AfterSteps (n + 1) t ∧ t.periodNs = s.periodNs := by
  have hperiod : t.periodNs = s.periodNs := by
    obtain ⟨w, u, -, hu, rfl⟩ := step_without_fault s t h ht
    obtain ⟨-, -, hkeeps, -⟩ := executeWord_keeps w _ u hu
    exact hkeeps
  obtain ⟨hacc, -⟩ := step_runs_timerPolicy s t h ht
  have hnext := afterSteps_timerPolicy hp hs
  refine ⟨?_, hperiod⟩
  rwa [AfterSteps, hacc, hperiod]

/-! ## Runs -/

/-- A run starts with one step where that answers a state. -/
theorem run_succ_of_step {s t : State} (n : Nat) (h : step s = .next t) :
    Sys2Proof.core.run (n + 1) s = Sys2Proof.core.run n t := by
  have hstep : Sys2Proof.core.step s = .next t := h
  simp only [Host.Core.run, hstep]

/-- A faulted core stays faulted along a run (R108). -/
theorem run_keeps_fault {f : Fault} {t : State} (n : Nat) :
    ∀ s : State, s.fault = some f → Sys2Proof.core.run n s = .next t → t.fault = some f := by
  induction n with
  | zero =>
    intro s hf h
    obtain rfl : s = t := Host.Outcome.next.inj h
    exact hf
  | succ n ih =>
    intro s hf h
    rw [run_succ_of_step n (step_of_faulted s f hf)] at h
    exact ih (closeStep (clearOutputs s)) hf h

/-- A run that ends without a fault keeps the cadence from wherever in it the run starts. -/
theorem afterSteps_run {t : State} (ht : t.fault = none) (n : Nat) :
    ∀ (m : Nat) (s : State), 1 ≤ s.periodNs → AfterSteps m s → Sys2Proof.core.run n s = .next t →
      AfterSteps (m + n) t ∧ t.periodNs = s.periodNs := by
  induction n with
  | zero =>
    intro m s _ hs h
    obtain rfl : s = t := Host.Outcome.next.inj h
    exact ⟨hs, rfl⟩
  | succ n ih =>
    intro m s hp hs h
    obtain ⟨u, hu⟩ := everyStepAnswersNext s
    rw [run_succ_of_step n hu] at h
    have hu_fault : u.fault = none := by
      cases hf : u.fault with
      | none => rfl
      | some f => exact absurd ((run_keeps_fault n u hf h).symm.trans ht) (Option.some_ne_none f)
    obtain ⟨hnext, hperiod⟩ := afterSteps_step hp hs hu hu_fault
    obtain ⟨hend, hperiod'⟩ := ih (m + 1) u (hperiod ▸ hp) hnext h
    exact ⟨by rwa [Nat.add_assoc, Nat.add_comm 1] at hend, hperiod'.trans hperiod⟩

/-- Settles O24: the run keeps the cadence, and the next policy is due where its step completes a tick. -/
theorem timersTickEveryKthStep : Obligations.TimersTickEveryKthStep := by
  unfold Obligations.TimersTickEveryKthStep
  intro s t n _ hacc hp h ht
  have hstart : AfterSteps 0 s := by rw [AfterSteps, Nat.zero_mod, Nat.zero_mul, hacc]
  obtain ⟨hend, hperiod⟩ := afterSteps_run ht n 0 s hp hstart h
  rw [Nat.zero_add] at hend
  rw [← hperiod] at hp ⊢
  exact ⟨hend, countDown_of_afterSteps hp hend t.dt, countDown_of_afterSteps hp hend t.st⟩

end Sys2Proof.Machine
end

section
/-! PROOFS. Control flow (spec/41_control_flow.md): jumps, call and return, skips. -/

namespace Sys2Proof.Machine

/-! ## Jumps and skips -/

theorem exec_jp (nnn : BitVec 12) (s : State) : exec (.jp nnn) s = .next (setPc s (zextAddress nnn)) := rfl

theorem exec_jpV0 (nnn : BitVec 12) (s : State) :
    exec (.jpV0 nnn) s = .next (setPc s (zextAddress nnn + zextByte (readV s 0))) := rfl

/-- A write of PC changes PC only. -/
theorem onlyPc_setPc (s : State) (a : Word) : OnlyPc s (setPc s a) :=
  ⟨fun r _ => readV_setPc s a r, rfl, fun _ => rfl, ⟨rfl, rfl⟩, ⟨rfl, rfl, rfl⟩, ⟨rfl, rfl⟩, rfl, rfl, rfl, rfl, rfl,
    rfl⟩

/-- A skip is a write of PC (R103). -/
theorem onlyPc_skipIf (c : Bool) (s : State) : OnlyPc s (skipIf c s) := onlyPc_setPc s _

/-- Settles O25: the meaning is one write of PC, of the address extended with zeros. -/
theorem jpSetsPc : Obligations.JpSetsPc := by
  unfold Obligations.JpSetsPc
  exact fun nnn s => ⟨_, exec_jp nnn s, zextAddress_toNat nnn, onlyPc_setPc s _⟩

/-- Settles O26: the meaning is one write of PC, of a sum that sixteen bits hold. -/
theorem jpV0AddsV0Exactly : Obligations.JpV0AddsV0Exactly := by
  unfold Obligations.JpV0AddsV0Exactly
  exact fun nnn s => ⟨_, exec_jpV0 nnn s, jumpV0_toNat nnn (readV s 0), onlyPc_setPc s _⟩

/-- A skip with its condition as a proposition. -/
theorem skipIf_pc_of_iff {c : Bool} {p : Prop} [Decidable p] (s : State) (h : c = true ↔ p) :
    (skipIf c s).pc = if p then s.pc + 2 else s.pc := by
  simp only [skipIf_pc, h]

/-- Settles O31: each meaning is one skip, by its own comparison. -/
theorem registerSkipsAddTwo : Obligations.RegisterSkipsAddTwo := by
  unfold Obligations.RegisterSkipsAddTwo
  refine fun x y kk s => ⟨⟨_, rfl, ?_, onlyPc_skipIf _ s⟩, ⟨_, rfl, ?_, onlyPc_skipIf _ s⟩,
    ⟨_, rfl, ?_, onlyPc_skipIf _ s⟩, ⟨_, rfl, ?_, onlyPc_skipIf _ s⟩⟩
  · exact skipIf_pc_of_iff s beq_iff_eq
  · exact skipIf_pc_of_iff s bne_iff_ne
  · exact skipIf_pc_of_iff s beq_iff_eq
  · exact skipIf_pc_of_iff s bne_iff_ne

/-! ## Call and return -/

theorem exec_call_of_free (nnn : BitVec 12) {s : State} (hsp : s.sp ≠ 15) :
    exec (.call nnn) s = .next (setPc { s with
      sp := s.sp + 1, stack := s.stack.set (s.sp + 1).val s.pc (s.sp + 1).isLt } (zextAddress nnn)) := by
  simp only [exec, execCall, pushReturn, if_neg hsp, finish_ok]

theorem exec_ret_of_nonempty {s : State} (hsp : s.sp ≠ 0) :
    exec .ret s = .next { s with pc := s.stack[s.sp], sp := s.sp - 1 } := by
  simp only [exec, execRet, popReturn, if_neg hsp, finish_ok]

/-- Settles O27: the push fills the slot the raised pointer names, and the jump writes PC. -/
theorem callPushesReturnAddress : Obligations.CallPushesReturnAddress := by
  unfold Obligations.CallPushesReturnAddress
  intro nnn s hsp
  have hslots : ∀ j : Fin 16, (s.stack.set (s.sp + 1).val s.pc (s.sp + 1).isLt)[j] =
      if j.val = s.sp.val + 1 then s.pc else s.stack[j] := by
    intro j
    simp only [Fin.getElem_fin, Vector.getElem_set, sp_add_one_val hsp, eq_comm]
  exact ⟨_, exec_call_of_free nnn hsp, zextAddress_toNat nnn, sp_add_one_val hsp, hslots, fun _ _ => rfl, rfl,
    fun _ => rfl, ⟨rfl, rfl, rfl⟩, ⟨rfl, rfl⟩, rfl, rfl, rfl, rfl, rfl, rfl⟩

/-- Settles O28: the pop reads the slot the pointer names and lowers the pointer without wrapping. -/
theorem retPopsReturnAddress : Obligations.RetPopsReturnAddress := by
  unfold Obligations.RetPopsReturnAddress
  intro s hsp
  have hval : (s.sp - 1).val + 1 = s.sp.val := by
    have hpos : s.sp.val ≠ 0 := fun h => hsp (Fin.ext h)
    rw [Fin.val_sub_one_of_ne_zero hsp]
    omega
  exact ⟨_, exec_ret_of_nonempty hsp, rfl, hval, rfl, fun _ _ => rfl, rfl,
    fun _ => rfl, ⟨rfl, rfl, rfl⟩, ⟨rfl, rfl⟩, rfl, rfl, rfl, rfl, rfl, rfl⟩

/-- Settles O30: the call raised the pointer above 0, to the slot that holds the return address. -/
theorem callThenRetReturns : Obligations.CallThenRetReturns := by
  unfold Obligations.CallThenRetReturns
  intro nnn s t a h
  obtain ⟨hsp, rfl⟩ := exec_call_ok nnn s t h
  have hraised : s.sp + 1 ≠ 0 := fun hzero =>
    Nat.succ_ne_zero s.sp.val ((sp_add_one_val hsp).symm.trans (congrArg Fin.val hzero))
  refine ⟨_, exec_ret_of_nonempty hraised, ?_, ?_⟩
  · simp
  · simp

end Sys2Proof.Machine
end

section
/-! PROOFS. The rest of the ALU (spec/42_alu.md), and the moves to and from the index register and the timers
(spec/43_index_memory.md, spec/45_input_timer_regs.md section 2). -/

namespace Sys2Proof.Machine

/-! ## Logic and subtraction -/

/-- Settles O34: each meaning is one register write, and a logic operation works bit by bit. -/
theorem logicOpsLeaveVf : Obligations.LogicOpsLeaveVf := by
  unfold Obligations.LogicOpsLeaveVf
  refine fun x y s => ⟨⟨_, rfl, readV_writeV_same s x _, onlyRegs_writeV s x _⟩,
    ⟨_, rfl, fun k => ?_, onlyRegs_writeV s x _⟩,
    ⟨_, rfl, fun k => ?_, onlyRegs_writeV s x _⟩, ⟨_, rfl, fun k => ?_, onlyRegs_writeV s x _⟩⟩
  · rw [readV_writeV_same, BitVec.getLsbD_or]
  · rw [readV_writeV_same, BitVec.getLsbD_and]
  · rw [readV_writeV_same, BitVec.getLsbD_xor]

/-- NOT borrow as VF holds it (R147). -/
theorem flagByte_notBorrow (a b : Byte) : flagByte (notBorrow a b) = if a.toNat < b.toNat then 0 else 1 := by
  simp only [flagByte, notBorrow, decide_eq_true_eq, ← Nat.not_lt, ite_not]

/-- A difference of bytes, modulo 256 (R151). -/
theorem byte_sub_toNat (a b : Byte) : (a - b).toNat = (256 + a.toNat - b.toNat) % 256 := by
  have hb := b.isLt
  rw [BitVec.toNat_sub]
  omega

/-- What a flagged subtraction leaves: NOT borrow in VF, the difference in another destination (R22, R147, R149). -/
theorem writeWithFlag_sub (s : State) (x : Reg) (a b : Byte) :
    (readV (writeWithFlag s x (a - b) (notBorrow a b)) 15 = if a.toNat < b.toNat then 0 else 1) ∧
      (x ≠ 15 → (readV (writeWithFlag s x (a - b) (notBorrow a b)) x).toNat = (256 + a.toNat - b.toNat) % 256) ∧
      OnlyRegs [x, 15] s (writeWithFlag s x (a - b) (notBorrow a b)) := by
  refine ⟨?_, fun hx => ?_, onlyRegs_writeWithFlag s x _ _⟩
  · rw [readV_writeWithFlag_regF, flagByte_notBorrow]
  · rw [readV_writeWithFlag_same s x _ _ hx, byte_sub_toNat]

/-- Settles O36: the two meanings are the flagged subtraction with its operands one way round and the other. -/
theorem subtractionsSetNotBorrow : Obligations.SubtractionsSetNotBorrow := by
  unfold Obligations.SubtractionsSetNotBorrow
  exact fun x y s => ⟨⟨decodeWord_encode (.subReg x y), _, rfl, writeWithFlag_sub s x (readV s x) (readV s y)⟩,
    decodeWord_encode (.subnReg x y), _, rfl, writeWithFlag_sub s x (readV s y) (readV s x)⟩

/-! ## Shifts -/

/-- A flag that is one bit of a byte, as a number. -/
theorem flagByte_getLsbD (a : Byte) (k : Nat) : (flagByte (a.getLsbD k)).toNat = a.toNat / 2 ^ k % 2 := by
  rw [BitVec.getLsbD, Nat.testBit_eq_decide_div_mod_eq]
  rcases Nat.mod_two_eq_zero_or_one (a.toNat / 2 ^ k) with h | h <;> rw [h] <;> rfl

/-- Settles O37: the flag is the old bit 0 or 7, the destination half or double the old value. -/
theorem shiftsSetBitShiftedOut : Obligations.ShiftsSetBitShiftedOut := by
  unfold Obligations.ShiftsSetBitShiftedOut
  refine fun x y s => ⟨⟨decodeWord_encode (.shr x y), _, rfl, ?_, fun hx => ?_, onlyRegs_writeWithFlag s x _ _⟩,
    decodeWord_encode (.shl x y), _, rfl, ?_, fun hx => ?_, onlyRegs_writeWithFlag s x _ _⟩
  · rw [readV_writeWithFlag_regF, lowBit, flagByte_getLsbD, Nat.pow_zero, Nat.div_one]
  · rw [readV_writeWithFlag_same s x _ _ hx, BitVec.toNat_ushiftRight, Nat.shiftRight_one]
  · have hlt := (readV s x).isLt
    rw [readV_writeWithFlag_regF, highBit, flagByte_getLsbD]
    omega
  · rw [readV_writeWithFlag_same s x _ _ hx, BitVec.toNat_shiftLeft, Nat.shiftLeft_eq, Nat.mul_comm]

/-! ## The random byte -/

theorem exec_rnd (x : Reg) (kk : Byte) (s : State) :
    exec (.rnd x kk) s = .next (writeV s x ((stepInput s).rnd &&& kk)) := rfl

/-- The host's next call, where one is listed, gives the step its inputs (R9). -/
theorem stepInput_of_inputs {s : State} {a : StepInput} {rest : List StepInput} (h : s.inputs = a :: rest) :
    stepInput s = a := by
  simp only [stepInput, h]

/-- Settles O38: the draw is the listed call's. -/
theorem rndMasksTheDraw : Obligations.RndMasksTheDraw := by
  unfold Obligations.RndMasksTheDraw
  intro x kk r k rest s h
  refine ⟨_, exec_rnd x kk s, fun j => ?_, onlyRegs_writeV s x _⟩
  rw [readV_writeV_same, stepInput_of_inputs h, BitVec.getLsbD_and]

/-- Settles O39: the mask bounds the result whatever the draw is. -/
theorem rndKeepsBitsOutsideMaskZero : Obligations.RndKeepsBitsOutsideMaskZero := by
  unfold Obligations.RndKeepsBitsOutsideMaskZero
  refine fun x kk s => ⟨_, exec_rnd x kk s, fun j hj => ?_, onlyRegs_writeV s x _⟩
  rw [readV_writeV_same, BitVec.getLsbD_and, hj, Bool.and_false]

/-! ## The index register -/

theorem exec_addI (x : Reg) (s : State) :
    exec (.addI x) s =
      .next (writeV (setI s (s.i + zextByte (readV s x))) regF (flagByte (indexOverflow s.i (readV s x)))) := rfl

theorem exec_ldF (x : Reg) (s : State) : exec (.ldF x) s = .next (setI s (glyphAddress (readV s x))) := rfl

/-- The 16-bit sum of the index register and a byte (R171). -/
theorem add_zextByte_toNat (i : Word) (b : Byte) : (i + zextByte b).toNat = (i.toNat + b.toNat) % 0x10000 := by
  rw [BitVec.toNat_add, zextByte_toNat]

/-- Both readings of the range flag: by the carry and the 16-bit sum, and by the exact sum. They agree because an exact
sum of at most 0xFFFF is its own 16-bit sum (R171, D29). -/
theorem indexOverflow_iff (i : Word) (b : Byte) :
    (indexOverflow i b = true ↔ 0xFFFF < i.toNat + b.toNat ∨ 0x0FFF < (i.toNat + b.toNat) % 0x10000) ∧
      (indexOverflow i b = true ↔ 0x0FFF < i.toNat + b.toNat) := by
  have hcases : indexOverflow i b = true ↔
      0xFFFF < i.toNat + b.toNat ∨ 0x0FFF < (i.toNat + b.toNat) % 0x10000 := by
    simp only [indexOverflow, Bool.or_eq_true, decide_eq_true_eq]
  refine ⟨hcases, hcases.trans ?_⟩
  omega

/-- Settles O41: one write of I and one of VF, the flag in both readings. -/
theorem addISetsIndexOverflow : Obligations.AddISetsIndexOverflow := by
  unfold Obligations.AddISetsIndexOverflow
  intro x s
  obtain ⟨hcarry, hexact⟩ := indexOverflow_iff s.i (readV s x)
  have hsum := add_zextByte_toNat s.i (readV s x)
  refine ⟨decodeWord_encode (.addI x), _, exec_addI x s, hsum, ?_, ?_, fun r hr => ?_, rfl, fun _ => rfl, ⟨rfl, rfl⟩,
    ⟨rfl, rfl, rfl⟩, ⟨rfl, rfl⟩, rfl, rfl, rfl, rfl, rfl, rfl⟩
  · rw [readV_writeV_same, writeV_i, setI_i, hsum]
    simp only [flagByte, hcarry]
  · rw [readV_writeV_same]
    simp only [flagByte, hexact]
  · rw [readV_writeV, if_neg (List.ne_of_not_mem_cons hr), readV_setI]

/-- Settles O42: the address of the glyph is far below 16 bits. -/
theorem ldFPointsAtGlyph : Obligations.LdFPointsAtGlyph := by
  unfold Obligations.LdFPointsAtGlyph
  refine fun x s => ⟨_, exec_ldF x s, ?_, onlyIndexAndRegs_setI s _⟩
  have hlt := (readV s x).isLt
  rw [setI_i, glyphAddress, BitVec.toNat_ofNat]
  simp only [fontBase]
  omega

/-! ## The timers -/

theorem exec_ldVxDT (x : Reg) (s : State) : exec (.ldVxDT x) s = .next (writeV s x s.dt) := rfl

/-- The buzzer sounds exactly where the sound timer is not 0 (R107). -/
theorem buzzer_eq (s : State) : buzzer s = decide (s.st ≠ 0) := by
  have hzero : s.st ≠ 0 ↔ 0 < s.st.toNat := by
    rw [Nat.pos_iff_ne_zero, ne_eq, ne_eq, ← BitVec.toNat_inj]
    rfl
  simp only [buzzer, hzero]

/-- Settles O55: each meaning is one write, of a register or of a timer, and in a step the policy has run before. -/
theorem timerRegisterMoves : Obligations.TimerRegisterMoves := by
  unfold Obligations.TimerRegisterMoves
  refine fun x s => ⟨⟨decodeWord_encode (.ldVxDT x), _, exec_ldVxDT x s, readV_writeV_same s x _,
      onlyRegs_writeV s x _⟩,
    fun hf hfetch => ?_, ⟨decodeWord_encode (.ldDTVx x), _, rfl, rfl, rfl, rfl, fun _ _ => rfl, rfl, rfl, fun _ => rfl,
      ⟨rfl, rfl⟩, ⟨rfl, rfl⟩, rfl, rfl, rfl, rfl, rfl, rfl⟩,
    decodeWord_encode (.ldSTVx x), _, rfl, rfl, buzzer_eq _, rfl, rfl, fun _ _ => rfl, rfl, rfl, fun _ => rfl,
      ⟨rfl, rfl⟩, ⟨rfl, rfl⟩, rfl, rfl, rfl, rfl, rfl, rfl⟩
  refine ⟨_, step_of_exec_next hf hfetch (exec_ldVxDT x _), ?_⟩
  rw [readV_closeStep, readV_writeV_same]
  rfl

end Sys2Proof.Machine
end

section
/-! PROOFS. Drawing (spec/44_display.md): what one drawing does, and the same drawing twice. -/

namespace Sys2Proof.Machine

/-! ## One drawing -/

/-- The state a drawing of the sprite `rows` leaves (R192). -/
def drawn (s : State) (x y : Reg) (rows : List Byte) : State :=
  writeV (setScreen s (drawSprite s.fb (spriteX s x) (spriteY s y) rows).fb) regF
    (flagByte (drawSprite s.fb (spriteX s x) (spriteY s y) rows).hit)

/-- `Dxyn` with its bytes in memory draws them (R192). -/
theorem exec_drw_of_fits {s : State} (x y : Reg) {n : Fin 16} (hfit : n.val = 0 ∨ s.i.toNat + n.val ≤ memSize) :
    exec (.drw x y n) s = .next (drawn s x y (bytesAtI s n.val)) := by
  simp only [exec, execDrw, readFromI_of_fits hfit, finish_ok, drawn]

/-- `Dxyn` that completes drew the bytes read at I (R192). -/
theorem exec_drw_next {s t : State} {x y : Reg} {n : Fin 16} (h : exec (.drw x y n) s = .next t) :
    ∃ rows, readFromI s n.val = .ok rows ∧ t = drawn s x y rows := exec_drw_ok x y n s t h

/-- A drawing inverts the pixels its sprite covers (R192). -/
theorem pixel_drawn (s : State) (x y : Reg) (rows : List Byte) (px py : Nat) :
    pixel (drawn s x y rows).fb px py = (pixel s.fb px py ^^ spriteCovers rows (spriteX s x) (spriteY s y) px py) :=
  pixel_drawRows rows _ _ { fb := s.fb, hit := false } px py

/-- VF after a drawing says whether a covered pixel was on before (R192). -/
theorem readV_regF_drawn (s : State) (x y : Reg) (rows : List Byte) :
    ((∃ px py, spriteCovers rows (spriteX s x) (spriteY s y) px py = true ∧ pixel s.fb px py = true) →
      readV (drawn s x y rows) 15 = 1) ∧
    ((¬ ∃ px py, spriteCovers rows (spriteX s x) (spriteY s y) px py = true ∧ pixel s.fb px py = true) →
      readV (drawn s x y rows) 15 = 0) := by
  have hhit := hit_drawRows rows (spriteX s x) (spriteY s y) { fb := s.fb, hit := false }
  simp only [Bool.false_eq_true, false_or] at hhit
  rw [drawn, readV_writeV_same, drawSprite, ← hhit]
  refine ⟨fun h => ?_, fun h => ?_⟩
  · rw [flagByte, if_pos h]
  · rw [flagByte, if_neg h]

/-- A drawing changes the display and VF only. -/
theorem onlyDisplayAndRegs_drawn (s : State) (x y : Reg) (rows : List Byte) :
    OnlyDisplayAndRegs [15] s (drawn s x y rows) := by
  refine ⟨fun r hr => ?_, rfl, rfl, fun _ => rfl, ⟨rfl, rfl⟩, ⟨rfl, rfl, rfl⟩, rfl, rfl, rfl, rfl, rfl, rfl⟩
  rw [drawn, readV_writeV, if_neg (List.ne_of_not_mem_cons hr), readV_setScreen]

/-- Settles O49: the sprite's bytes are those at I, and what they cover is said bit by bit. -/
theorem drwInvertsCoveredPixels : Obligations.DrwInvertsCoveredPixels := by
  unfold Obligations.DrwInvertsCoveredPixels
  intro x y n s hfit
  obtain ⟨hone, hzero⟩ := readV_regF_drawn s x y (bytesAtI s n.val)
  exact ⟨_, spriteCovers (bytesAtI s n.val) (spriteX s x) (spriteY s y), exec_drw_of_fits x y hfit,
    spriteCovers_block s.mem s.i.toNat n.val _ _, pixel_drawn s x y _, hone, hzero, rfl,
    onlyDisplayAndRegs_drawn s x y _⟩

/-! ## The same drawing twice -/

/-- A drawing keeps the coordinates of the next one, unless one of them is VF. -/
theorem readV_drawn_of_ne (s : State) (x y : Reg) (rows : List Byte) {r : Reg} (hr : r ≠ 15) :
    readV (drawn s x y rows) r = readV s r := by
  obtain ⟨hregs, -⟩ := onlyDisplayAndRegs_drawn s x y rows
  exact hregs r (by simpa using hr)

/-- Settles O50: the second drawing covers the same pixels, so inverts them back; a pixel the first turned on is one it
covers, and is on before the second. -/
theorem drawingTwiceRestoresScreen : Obligations.DrawingTwiceRestoresScreen := by
  unfold Obligations.DrawingTwiceRestoresScreen
  intro x y n s t u hx hy ht hu
  obtain ⟨rows, hrows, rfl⟩ := exec_drw_next ht
  obtain ⟨rows', hrows', rfl⟩ := exec_drw_next hu
  obtain rfl : rows = rows' := Except.ok.inj (hrows.symm.trans hrows')
  have hX : spriteX (drawn s x y rows) x = spriteX s x := by rw [spriteX, readV_drawn_of_ne s x y rows hx, spriteX]
  have hY : spriteY (drawn s x y rows) y = spriteY s y := by rw [spriteY, readV_drawn_of_ne s x y rows hy, spriteY]
  refine ⟨fun px py => ?_, fun ⟨px, py, hoff, hon⟩ => ?_⟩
  · rw [pixel_drawn, hX, hY, pixel_drawn, Bool.xor_assoc, Bool.xor_self, Bool.xor_false]
  · obtain ⟨hone, -⟩ := readV_regF_drawn (drawn s x y rows) x y rows
    refine hone ⟨px, py, ?_, hon⟩
    rwa [hX, hY, ← Bool.false_xor (spriteCovers _ _ _ _ _), ← hoff, ← pixel_drawn]

end Sys2Proof.Machine
end

section
/-! PROOFS. Keys (spec/45_input_timer_regs.md section 1): the two skips and the wait. -/

namespace Sys2Proof.Machine

/-! ## The key skips -/

/-- The two skips with V[x] a key number test the snapshot's entry (R210, R211). -/
theorem exec_key_skips {s : State} {x : Reg} {k : Fin 16} (hk : (readV s x).toNat = k.val) :
    exec (.skp x) s = .next (skipIf (stepInput s).keys[k] s) ∧
      exec (.sknp x) s = .next (skipIf (!(stepInput s).keys[k]) s) := by
  have hnumber : keyNumber s x = .ok k.val := by
    rw [keyNumber_eq, hk, if_neg (Nat.not_le.2 k.isLt)]
  simp only [exec, execSkp, execSknp, hnumber, keyDown_eq, finish_ok, and_self]

theorem exec_key_skips_of_no_key {s : State} {x : Reg} (hk : 16 ≤ (readV s x).toNat) :
    exec (.skp x) s = .fault (.keyIndexOutOfRange (readV s x)) ∧
      exec (.sknp x) s = .fault (.keyIndexOutOfRange (readV s x)) := by
  have hnumber : keyNumber s x = .error (.keyIndexOutOfRange (readV s x)) := by
    rw [keyNumber_eq, if_pos hk]
  simp only [exec, execSkp, execSknp, hnumber, finish_error, and_self]

/-- Settles O51: the snapshot is the listed call's. -/
theorem keySkipsTestTheSnapshot : Obligations.KeySkipsTestTheSnapshot := by
  unfold Obligations.KeySkipsTestTheSnapshot
  refine fun x s => ⟨fun k keys r rest hinputs hk => ?_, exec_key_skips_of_no_key⟩
  obtain ⟨hskp, hsknp⟩ := exec_key_skips hk
  rw [stepInput_of_inputs hinputs] at hskp hsknp
  refine ⟨⟨_, hskp, skipIf_pc _ s, onlyPc_skipIf _ s⟩, _, hsknp, ?_, onlyPc_skipIf _ s⟩
  rw [skipIf_pc]
  cases keys[k] <;> rfl

/-- A skip ends at one of two addresses (R103). -/
theorem skipIf_pc_or (c : Bool) (s : State) : (skipIf c s).pc = s.pc ∨ (skipIf c s).pc = s.pc + 2 := by
  cases c
  · exact .inl rfl
  · exact .inr rfl

/-! ## The wait for a key -/

theorem exec_ldK_of_no_key (x : Reg) {s : State} (h : ∀ j : Fin 16, (stepInput s).keys[j] = false) :
    exec (.ldK x) s = .next (setPc s (fetchPC s)) := by
  simp only [exec, execLdK, (lowestKey_eq_none s).2 h]

theorem exec_ldK_of_lowest (x : Reg) {s : State} {k : Fin 16} (hk : (stepInput s).keys[k] = true)
    (hlow : ∀ j : Fin 16, j < k → (stepInput s).keys[j] = false) :
    exec (.ldK x) s = .next (writeV s x (BitVec.ofNat 8 k.val)) := by
  simp only [exec, execLdK, (lowestKey_eq_some s k).2 ⟨hk, hlow⟩]

/-- A key number's byte is the number. -/
theorem key_toNat (k : Fin 16) : (BitVec.ofNat 8 k.val).toNat = k.val := by
  rw [BitVec.toNat_ofNat]
  omega

/-- No key is pressed, or there is a lowest one. -/
theorem no_key_or_lowest (s : State) :
    (∀ j : Fin 16, (stepInput s).keys[j] = false) ∨
      ∃ k : Fin 16, (stepInput s).keys[k] = true ∧ ∀ j : Fin 16, j < k → (stepInput s).keys[j] = false := by
  cases hl : lowestKey s with
  | none => exact .inl ((lowestKey_eq_none s).1 hl)
  | some k => exact .inr ⟨⟨k, lowestKey_lt s k hl⟩, (lowestKey_eq_some s ⟨k, lowestKey_lt s k hl⟩).1 hl⟩

/-- Settles O52: a key number makes a skip complete, and `Fx0A` by whether there is a lowest key. -/
theorem keyInstructionsComplete : Obligations.KeyInstructionsComplete := by
  unfold Obligations.KeyInstructionsComplete
  refine fun x s => ⟨fun hx => ?_, ?_⟩
  · obtain ⟨hskp, hsknp⟩ := exec_key_skips (k := ⟨(readV s x).toNat, hx⟩) rfl
    exact ⟨⟨_, hskp, skipIf_pc_or _ s, onlyPc_skipIf _ s⟩, _, hsknp, skipIf_pc_or _ s, onlyPc_skipIf _ s⟩
  · rcases no_key_or_lowest s with hnone | ⟨k, hk, hlow⟩
    · exact ⟨_, exec_ldK_of_no_key x hnone, .inl ⟨hnone, fetchPC_toNat s, onlyPc_setPc s _⟩⟩
    · refine ⟨_, exec_ldK_of_lowest x hk hlow, .inr ⟨k, hk, hlow, ?_, onlyRegs_writeV s x _⟩⟩
      rw [readV_writeV_same, key_toNat]

/-- Settles O53: the snapshot is the listed call's. -/
theorem ldKStoresLowestKey : Obligations.LdKStoresLowestKey := by
  unfold Obligations.LdKStoresLowestKey
  intro x s keys r rest k hinputs hk hlow
  have hinput := stepInput_of_inputs hinputs
  refine ⟨_, exec_ldK_of_lowest x (by rwa [hinput]) (by rwa [hinput]), ?_, onlyRegs_writeV s x _⟩
  rw [readV_writeV_same, key_toNat]

/-- Settles O54: the step's instruction puts PC back at the fetch address, and nothing else is written but what the
policy wrote. -/
theorem ldKWaitsWithPcUnchanged : Obligations.LdKWaitsWithPcUnchanged := by
  unfold Obligations.LdKWaitsWithPcUnchanged
  intro x s keys r rest hf hfetch hinputs hnone
  have hinput : stepInput (advancePc (startStep s)) = ⟨keys, r⟩ := stepInput_of_inputs hinputs
  have hx := exec_ldK_of_no_key x (s := advancePc (startStep s)) (by rwa [hinput])
  exact ⟨_, step_of_exec_next hf hfetch hx, fetchPC_of_fetches hfetch, hf, fun _ _ => rfl, fun _ => rfl, rfl,
    ⟨rfl, rfl⟩, rfl, rfl, rfl, rfl⟩

end Sys2Proof.Machine
end
